-- ==== Sys2Proof/Word.lean ====
section
/-! DEFINITION. The word types of DBE: register words, bytes, and the reference number type. -/

namespace Sys2Proof

/-- A 32-bit register or command word (10_state.md R22, 30_encoding.md R90). -/
abbrev Word := BitVec 32

/-- An 8-bit element: a palette index in IDX, a byte of OUT (20_memory.md R60). -/
abbrev Byte := BitVec 8

/-- The reference instantiation of `NUM`: exact rationals (40_numerics.md R110). -/
abbrev NUM := Rat

end Sys2Proof
end

