-- ==== Sys2Proof/Config.lean ====
section
/-! DEFINITION. What one build of DBE fixes, and the free values: the open parameters `NUM` and
`OUTCAP` of 00_scope.md R8, and the unspecified contents of the memories after a hardware reset
(10_state.md R43). The machine is written for every value of these; `Config.reference` is the
instantiation that `exec` and `step` use. -/

namespace Sys2Proof

/-- The six element-addressed memories (00_scope.md R19, 20_memory.md R60). -/
inductive Space where
  | grid
  | pal
  | ker
  | idx
  | qin
  | out
  deriving DecidableEq, Repr

/-- The operations of the open number type `NUM` (40_numerics.md R110): constants 0 and 1, addition,
subtraction, multiplication and the order. The rules use nothing else of it. -/
structure NumOps (α : Type) where
  zero : α
  one : α
  add : α → α → α
  sub : α → α → α
  mul : α → α → α
  le : α → α → Bool

/-- The order of a `NUM` is a total order (40_numerics.md R110, "a decidable total order"). -/
structure NumOps.TotalOrder {α : Type} (N : NumOps α) : Prop where
  refl : ∀ a, N.le a a = true
  trans : ∀ a b c, N.le a b = true → N.le b c = true → N.le a c = true
  antisymm : ∀ a b, N.le a b = true → N.le b a = true → a = b
  total : ∀ a b, N.le a b = true ∨ N.le b a = true

/-- One build of DBE: the open parameters (00_scope.md R8) and the contents the memories hold after
a hardware reset, which no rule fixes (10_state.md R43). `resetNum k sp key` is the element of
space `sp` at linear position `key` after hardware reset number `k`; `resetIdx k key` the same for
IDX. A claim "for every `Params`" is a claim for every start content (93, U1 "any value"). -/
structure Params (α : Type) where
  num : NumOps α
  /-- `OUTCAP`, "at most `2^32 - 1`" (92_eei_decisions.md, open parameters). -/
  outCap : Fin 4294967296
  resetNum : Nat → Space → Nat → α
  resetIdx : Nat → Nat → Byte

/-- Exact rational arithmetic, the reference instantiation of `NUM` (40_numerics.md R110). -/
def Config.rationals : NumOps NUM where
  zero := 0
  one := 1
  add a b := a + b
  sub a b := a - b
  mul a b := a * b
  le a b := decide (a ≤ b)

/-- FREE VALUE (log entry 3): what an element of GRID, PAL, KER or QIN that nothing has written since
hardware reset number `k` holds. No body: nothing can be proved of it. -/
opaque Config.resetNum : Nat → Space → Nat → NUM

/-- FREE VALUE (log entry 3): the same for an element of IDX. -/
opaque Config.resetIdx : Nat → Nat → Byte

/-- The reference build: exact rationals and `OUTCAP = 2^32 - 1` (00_scope.md R8), with free reset
contents. DESIGN CHOICE of instantiation: log entries 1 and 2. -/
def Config.reference : Params NUM where
  num := Config.rationals
  outCap := 4294967295
  resetNum := Config.resetNum
  resetIdx := Config.resetIdx

end Sys2Proof
end

