-- ==== Sys2Proof/Syntax.lean ====
section
/-! DEFINITION. The commands of DBE: one constructor per row of the opcode map (30_encoding.md R91). -/

namespace Sys2Proof

/-- A command. The line index of `dline` is a mathematical integer (30_encoding.md R93,
40_numerics.md R118); `Instr.WellFormed` bounds it by what the encoding can carry. -/
inductive Instr where
  /-- `NOP`: nothing (44_control.md R173). -/
  | nop
  /-- `DLINE y`: dither line `y` (42_dither.md R147). -/
  | dline (y : Nat)
  /-- `NEAR`: nearest palette entry of QIN (41_quantize.md R127). -/
  | near
  /-- `ENCROW`: encode one tile row (43_bitplane.md R162). -/
  | encrow
  /-- `SRESET`: soft reset (44_control.md R174). -/
  | sreset
  deriving DecidableEq, Repr

end Sys2Proof
end

