-- ==== Sys2Proof/WellFormed.lean ====
section
/-! DEFINITION. Which commands have an encoding: the line index fits the 16-bit immediate. -/

namespace Sys2Proof

/-- The check on a command: the immediate of `DLINE` is `0 .. 65535` (30_encoding.md R93); the other
commands have no operand (R91). -/
def Instr.wellFormed : Instr → Bool
  | .nop => true
  | .dline y => decide (y < 65536)
  | .near => true
  | .encrow => true
  | .sreset => true

/-- `Instr.wellFormed` as a proposition. -/
abbrev Instr.WellFormed (i : Instr) : Prop := i.wellFormed = true

end Sys2Proof
end

