-- ==== Sys2Proof/Decode.lean ====
section
/-! DEFINITION. The command decoder, total on every 32-bit word and rejecting by name, the encoder,
and the opcode map as a table (30_encoding.md R90 to R96). -/

namespace Sys2Proof

/-- Why a word is illegal (30_encoding.md R94). -/
inductive Illegal where
  /-- `rsv`, bits 31:24, is not 0. -/
  | reservedBits
  /-- `imm`, bits 23:8, is not 0 and `op` is not that of `DLINE`. -/
  | immediate
  /-- `op`, bits 7:0, is 0x05 to 0xFF. -/
  | opcode
  deriving DecidableEq, Repr

/-- The field `op`, bits 7:0 (30_encoding.md R90). -/
def opField (w : Word) : BitVec 8 := w.extractLsb' 0 8

/-- The field `imm`, bits 23:8 (30_encoding.md R90). -/
def immField (w : Word) : BitVec 16 := w.extractLsb' 8 16

/-- The field `rsv`, bits 31:24 (30_encoding.md R90). -/
def rsvField (w : Word) : BitVec 8 := w.extractLsb' 24 8

/-- The decoder, in the order of the tests of 30_encoding.md R96. -/
def decode (w : Word) : Except Illegal Instr :=
  if rsvField w ≠ 0 then .error .reservedBits
  else if opField w = 0x01 then .ok (.dline (immField w).toNat)
  else if immField w ≠ 0 then .error .immediate
  else if opField w = 0x00 then .ok .nop
  else if opField w = 0x02 then .ok .near
  else if opField w = 0x03 then .ok .encrow
  else if opField w = 0x04 then .ok .sreset
  else .error .opcode

/-- The encoder (30_encoding.md R96). -/
def encode : Instr → Word
  | .nop => 0x00000000
  | .dline y => (BitVec.ofNat 32 y <<< 8) ||| 0x00000001
  | .near => 0x00000002
  | .encrow => 0x00000003
  | .sreset => 0x00000004

/-- The mnemonic of a command (30_encoding.md R91). -/
def Instr.mnemonic : Instr → String
  | .nop => "NOP"
  | .dline _ => "DLINE"
  | .near => "NEAR"
  | .encrow => "ENCROW"
  | .sreset => "SRESET"

/-- The `match` column of the opcode map (30_encoding.md R91). -/
def Instr.rowMatch : Instr → Word
  | .nop => 0x00000000
  | .dline _ => 0x00000001
  | .near => 0x00000002
  | .encrow => 0x00000003
  | .sreset => 0x00000004

/-- The `mask` column of the opcode map (30_encoding.md R91). -/
def Instr.rowMask : Instr → Word
  | .nop => 0xFFFFFFFF
  | .dline _ => 0xFF0000FF
  | .near => 0xFFFFFFFF
  | .encrow => 0xFFFFFFFF
  | .sreset => 0xFFFFFFFF

/-- The instruction the decoder reads from the `nbits`-bit word `w`, bits numbered as
spec/opcode_table.json numbers them. A command is the 32 bits of a register write
(30_encoding.md R95): a value that does not fit in 32 bits is no command word. -/
def decodeTableWord (nbits w : Nat) : Option Instr :=
  if w % 2 ^ nbits < 2 ^ 32 then
    match decode (BitVec.ofNat 32 (w % 2 ^ nbits)) with
    | .ok i => some i
    | .error _ => none
  else none

end Sys2Proof
end

