-- ==== Sys2Proof/Machine/State.lean ====
section
/-! DEFINITION. The architectural state of DBE (10_state.md), the host's transactions
(20_memory.md R62), the error codes (60_exceptions.md R186), and the state after reset. -/

namespace Sys2Proof.Machine

/-- The error codes of 60_exceptions.md R186. -/
inductive ErrCode where
  | illcmd
  | bpp
  | size
  | kgeom
  | line
  | outfull
  deriving DecidableEq, Repr

/-- An element whose type is `NUM`, by its coordinates; the ranges are the types (20_memory.md R60). -/
inductive NumAddr where
  | grid (y x : Fin 65536) (c : Fin 4)
  | pal (i : Fin 256) (c : Fin 4)
  | ker (r k : Fin 8)
  | qin (c : Fin 4)
  deriving DecidableEq, Repr

/-- An element that is an 8-bit integer or a byte (20_memory.md R60). -/
inductive ByteAddr where
  | idx (s : Fin 8) (x : Fin 65536)
  | out (b : Fin 4294967296)
  deriving DecidableEq, Repr

/-- An address of a memory port: a space and the coordinates in it (20_memory.md R60). -/
inductive Addr where
  | num (a : NumAddr)
  | byte (a : ByteAddr)
  deriving DecidableEq, Repr

/-- What a `MemWrite` carries: an address and a value of that element's type (20_memory.md R64). -/
inductive Store (α : Type) where
  | num (a : NumAddr) (v : α)
  | byte (a : ByteAddr) (v : Byte)
  deriving DecidableEq, Repr

/-- The four host transactions (20_memory.md R62). -/
inductive Txn (α : Type) where
  | regRead (n : Word)
  | regWrite (n w : Word)
  | memRead (a : Addr)
  | memWrite (st : Store α)
  deriving DecidableEq, Repr

/-- What the outside does to DBE: a host transaction, or a hardware reset between two of them
(70_reset_and_hazards.md R210; log entry 6). -/
inductive Event (α : Type) where
  | txn (t : Txn α)
  | hardReset
  deriving DecidableEq, Repr

/-- What a transaction returns to the host: nothing, a register's word, a `NUM`, or a byte
(20_memory.md R62, R63). -/
inductive Reply (α : Type) where
  | none
  | word (w : Word)
  | num (v : α)
  | byte (b : Byte)
  deriving DecidableEq, Repr

/-- A memory: the elements written since the last hardware reset, as (position, value) pairs with
positions strictly rising (log entry 7). An element that is not listed reads as a free value
(log entry 3), so the list holds no value for it. -/
abbrev Mem (β : Type) := List (Nat × β)

/-- The hardware state (10_state.md R20 to R43), over any number type `α` for `NUM`. ID is a
constant (R24), STATUS.WTRUNC, STATUS.HTRUNC and OUTLEN are functions of DIM and OUT (R29, R34), and
CMD stores nothing (R32), so none of them has a field. -/
structure Engine (α : Type) where
  /-- CTRL (R25). -/
  ctrl : Word
  /-- DIM (R26). -/
  dim : Word
  /-- FMT (R27). -/
  fmt : Word
  /-- KGEOM (R28). -/
  kgeom : Word
  /-- STATUS.ERR (R29): an error is latched and the engine is halted. -/
  err : Bool
  /-- ECODE, bits 7:0 (R30). -/
  ecode : Byte
  /-- ECMD (R31). -/
  ecmd : Word
  /-- QIDX, bits 7:0 (R33). -/
  qidx : Byte
  /-- QIN (R35). -/
  qin : Mem α
  /-- GRID (R36). -/
  grid : Mem α
  /-- PAL (R37). -/
  pal : Mem α
  /-- KER (R38). -/
  ker : Mem α
  /-- IDX (R39). -/
  idx : Mem Byte
  /-- OUT, the pixel stream, first byte first (R40). -/
  out : List Byte
  /-- The model's own counter of hardware resets; it selects the unspecified contents of R43
  (log entry 5). -/
  resets : Nat
  deriving DecidableEq, Repr

/-- The machine: the hardware at the reference number type, the host's coming events, and the value
the latest transaction returned (log entry 4). -/
structure State extends Engine NUM where
  /-- The events still to come, the next one first (10_state.md R21, 20_memory.md R62). -/
  events : List (Event NUM)
  /-- What the latest event returned to the host. -/
  reply : Reply NUM
  deriving DecidableEq, Repr

/-- Why the machine stops: it never does. Every transaction and every command has a next state
(44_control.md R170, R176), so there is no reason to name; a DBE error is a latched next state
(60_exceptions.md R190). Safe: nothing can be proved past a stop that cannot happen. -/
inductive Fault
  deriving DecidableEq, Repr

/-- Why an instruction has no meaning. -/
inductive Refusal where
  /-- Raised by `exec` for an instruction that has no meaning yet. Safe: nothing is proved past it.
  No arm raises it. -/
  | notModelled (mnemonic : String)
  deriving DecidableEq, Repr

/-- The hardware after the `k`-th hardware reset (10_state.md R43, 70_reset_and_hazards.md R210): the
registers 0, no error latched, OUT empty, no element of a memory written yet. -/
def Engine.afterReset (α : Type) (k : Nat) : Engine α where
  ctrl := 0
  dim := 0
  fmt := 0
  kgeom := 0
  err := false
  ecode := 0
  ecmd := 0
  qidx := 0
  qin := []
  grid := []
  pal := []
  ker := []
  idx := []
  out := []
  resets := k

/-- The machine right after reset, no transaction made yet. -/
def State.reset : State where
  toEngine := Engine.afterReset NUM 0
  events := []
  reply := .none

end Sys2Proof.Machine
end

