-- ==== Sys2Proof/Machine/Memory.lean ====
section
/-! DEFINITION. The element memories: reading and writing one element, the canonical form, the linear
position of each element, and the value an element holds (20_memory.md R60 to R64). -/

namespace Sys2Proof.Machine

/-- The value listed at position `k`, if that element has been written. -/
def Mem.read {β : Type} : Mem β → Nat → Option β
  | [], _ => none
  | (j, v) :: m, k => if k = j then some v else if k < j then none else Mem.read m k

/-- The memory with `v` at position `k`, still strictly rising. -/
def Mem.write {β : Type} : Mem β → Nat → β → Mem β
  | [], k, v => [(k, v)]
  | (j, u) :: m, k, v =>
    if k = j then (k, v) :: m
    else if k < j then (k, v) :: (j, u) :: m
    else (j, u) :: Mem.write m k v

/-- Positions strictly rise, start at `lo` or above, and stay below `size`. -/
def Mem.risingFrom {β : Type} (size : Nat) : Nat → Mem β → Bool
  | _, [] => true
  | lo, (j, _) :: m => decide (lo ≤ j) && decide (j < size) && Mem.risingFrom size (j + 1) m

/-- The canonical form of a memory of `size` elements (log entry 7). -/
def Mem.wf {β : Type} (size : Nat) (m : Mem β) : Bool := Mem.risingFrom size 0 m

/-- Sizes of the spaces in elements (20_memory.md R61). -/
def gridSize : Nat := 17179869184
/-- Size of PAL (20_memory.md R61). -/
def palSize : Nat := 1024
/-- Size of KER (20_memory.md R61). -/
def kerSize : Nat := 64
/-- Size of IDX (20_memory.md R61). -/
def idxSize : Nat := 524288
/-- Size of QIN (20_memory.md R61). -/
def qinSize : Nat := 4

/-- The position of `GRID[y][x][c]`. It does not depend on DIM (10_state.md R36). -/
def gridKey (y x c : Nat) : Nat := (y * 65536 + x) * 4 + c

/-- The position of `PAL[i][c]` (10_state.md R37). -/
def palKey (i c : Nat) : Nat := i * 4 + c

/-- The position of `KER[r][k]` (10_state.md R38). -/
def kerKey (r k : Nat) : Nat := r * 8 + k

/-- The position of `IDX[s][x]` (10_state.md R39). -/
def idxKey (s x : Nat) : Nat := s * 65536 + x

variable {α : Type}

/-- The current value of `GRID[y][x][c]`: what was written or added last, else the unspecified reset
content (10_state.md R36, R43; 20_memory.md R63). -/
def gridAt (P : Params α) (e : Engine α) (y x c : Nat) : α :=
  (e.grid.read (gridKey y x c)).getD (P.resetNum e.resets .grid (gridKey y x c))

/-- The current value of `PAL[i][c]` (10_state.md R37). -/
def palAt (P : Params α) (e : Engine α) (i c : Nat) : α :=
  (e.pal.read (palKey i c)).getD (P.resetNum e.resets .pal (palKey i c))

/-- The current value of `KER[r][k]` (10_state.md R38). -/
def kerAt (P : Params α) (e : Engine α) (r k : Nat) : α :=
  (e.ker.read (kerKey r k)).getD (P.resetNum e.resets .ker (kerKey r k))

/-- The current value of `QIN[c]` (10_state.md R35). -/
def qinAt (P : Params α) (e : Engine α) (c : Nat) : α :=
  (e.qin.read c).getD (P.resetNum e.resets .qin c)

/-- The current value of `IDX[s][x]` (10_state.md R39). -/
def idxAt (P : Params α) (e : Engine α) (s x : Nat) : Byte :=
  (e.idx.read (idxKey s x)).getD (P.resetIdx e.resets (idxKey s x))

/-- `OUT[b]`, or 0 at and beyond OUTLEN (10_state.md R40, 20_memory.md R63). -/
def outAt (e : Engine α) (b : Nat) : Byte := e.out.getD b 0

/-- `GRID[y][x][c] <- v`. -/
def setGrid (e : Engine α) (y x c : Nat) (v : α) : Engine α :=
  { e with grid := e.grid.write (gridKey y x c) v }

/-- `IDX[s][x] <- v`. -/
def setIdx (e : Engine α) (s x : Nat) (v : Byte) : Engine α :=
  { e with idx := e.idx.write (idxKey s x) v }

/-- `append(OUT, ·)` for a sequence of bytes (00_scope.md R11). -/
def appendOut (e : Engine α) (bytes : List Byte) : Engine α :=
  { e with out := e.out ++ bytes }

end Sys2Proof.Machine
end

