-- ==== Sys2Proof/Machine/Numerics.lean ====
section
/-! DEFINITION. The functions on `NUM` and on index bits that the commands share (40_numerics.md). -/

namespace Sys2Proof.Machine

variable {α : Type}

/-- A colour: one `NUM` for each channel. -/
abbrev Colour (α : Type) := Nat → α

/-- The strict order derived from `<=` (40_numerics.md R110, R121). -/
def numLt (N : NumOps α) (a b : α) : Bool := !N.le b a

/-- The equality derived from `<=` (40_numerics.md R110, R116). -/
def numEq (N : NumOps α) (a b : α) : Bool := N.le a b && N.le b a

/-- `clamp01` (40_numerics.md R113). -/
def clamp01 (N : NumOps α) (v : α) : α :=
  if numLt N v N.zero then N.zero
  else if numLt N N.one v then N.one
  else v

/-- The squared difference in one channel: `t = sub(a, p)`, `mul(t, t)` (40_numerics.md R114). -/
def squaredDiff (N : NumOps α) (a p : α) : α := N.mul (N.sub a p) (N.sub a p)

/-- The squared distance over channels `0 .. ch-1`, summed in ascending order from 0
(40_numerics.md R114). -/
def dist2 (N : NumOps α) (ch : Nat) (a p : Colour α) : α :=
  (List.range ch).foldl (fun d c => N.add d (squaredDiff N (a c) (p c))) N.zero

/-- The new value of an element that receives error `err` with weight `wt`: product first, then the
sum with the old value (40_numerics.md R115). -/
def contribution (N : NumOps α) (old err wt : α) : α := N.add old (N.mul err wt)

/-- `bit(v, p)`, bit 0 the least significant, as an 8-bit value 0 or 1 (40_numerics.md R120). -/
def bitOf (v : Byte) (p : Nat) : Byte := (v >>> p) &&& 1#8

end Sys2Proof.Machine
end

