-- ==== Sys2Proof/Machine/Operands.lean ====
section
/-! DEFINITION. The operands of the commands: the fields of the configuration registers
(10_state.md R25 to R28) and the colours a command reads from the memories. A command word carries no
operand but the line index, which `decode` extracts (30_encoding.md R92, R93). -/

namespace Sys2Proof.Machine

variable {α : Type}

/-- `CTRL.KEN`, bit 0: a kernel is configured (R25). -/
def Engine.kernelOn (e : Engine α) : Bool := e.ctrl.getLsbD 0

/-- `CTRL.SERP`, bit 1: serpentine scanning (R25). -/
def Engine.serpentine (e : Engine α) : Bool := e.ctrl.getLsbD 1

/-- `DIM.WIDTH`, bits 15:0 (R26). -/
def Engine.width (e : Engine α) : Nat := (e.dim.extractLsb' 0 16).toNat

/-- `DIM.HEIGHT`, bits 31:16 (R26). -/
def Engine.height (e : Engine α) : Nat := (e.dim.extractLsb' 16 16).toNat

/-- `FMT.BPP`, bits 3:0, the raw number (R27). -/
def Engine.bpp (e : Engine α) : Nat := (e.fmt.extractLsb' 0 4).toNat

/-- `CH = FMT.CHM1 + 1`, from bits 5:4 (R27). -/
def Engine.channels (e : Engine α) : Nat := (e.fmt.extractLsb' 4 2).toNat + 1

/-- `N = 2^BPP`, the palette size (R27). -/
def Engine.paletteSize (e : Engine α) : Nat := 2 ^ e.bpp

/-- `KH = KGEOM.KHM1 + 1`, from bits 2:0 (R28). -/
def Engine.kernelRows (e : Engine α) : Nat := (e.kgeom.extractLsb' 0 3).toNat + 1

/-- `KW = KGEOM.KWM1 + 1`, from bits 6:4 (R28). -/
def Engine.kernelCols (e : Engine α) : Nat := (e.kgeom.extractLsb' 4 3).toNat + 1

/-- `KGEOM.KX`, bits 10:8: the kernel column on the current pixel (R28). -/
def Engine.kernelOrigin (e : Engine α) : Nat := (e.kgeom.extractLsb' 8 3).toNat

/-- `FMT.BPP` is one of the legal depths 2, 4 and 8 (R27). -/
def Engine.bppLegal (e : Engine α) : Bool := e.bpp == 2 || e.bpp == 4 || e.bpp == 8

/-- Whole tiles in a tile row, `WIDTH div 8` (43_bitplane.md R161). -/
def Engine.tiles (e : Engine α) : Nat := e.width / 8

/-- `GRID[y][x][0 .. CH-1]` as it is, unclamped (42_dither.md R137). -/
def gridColour (P : Params α) (e : Engine α) (y x : Nat) : Colour α := gridAt P e y x

/-- The clamped colour of a pixel (42_dither.md R139). -/
def clampedColour (P : Params α) (e : Engine α) (y x : Nat) : Colour α :=
  fun c => clamp01 P.num (gridAt P e y x c)

/-- Palette entry `i` (10_state.md R37). -/
def palColour (P : Params α) (e : Engine α) (i : Nat) : Colour α := palAt P e i

/-- The operand of NEAR, `QIN[0 .. CH-1]`, unclamped (41_quantize.md R127). -/
def qinColour (P : Params α) (e : Engine α) : Colour α := qinAt P e

end Sys2Proof.Machine
end

