-- ==== Sys2Proof/Machine/Flags.lean ====
section
/-! DEFINITION. The flags: the three bits of STATUS (10_state.md R29). No command sets a flag as a
side effect of a result. -/

namespace Sys2Proof.Machine

variable {α : Type}

/-- `STATUS.WTRUNC`: the width is not a multiple of 8; a function of DIM (R29). -/
def Engine.wtrunc (e : Engine α) : Bool := e.width % 8 != 0

/-- `STATUS.HTRUNC`: the height is not a multiple of 8; a function of DIM (R29). -/
def Engine.htrunc (e : Engine α) : Bool := e.height % 8 != 0

/-- The STATUS register as it is read: ERR bit 0, WTRUNC bit 1, HTRUNC bit 2, the rest 0 (R29). -/
def Engine.status (e : Engine α) : Word :=
  0#29 ++ BitVec.ofBool e.htrunc ++ BitVec.ofBool e.wtrunc ++ BitVec.ofBool e.err

end Sys2Proof.Machine
end

