-- ==== Sys2Proof/Machine/Ops.lean ====
section
/-! DEFINITION. The named operations over registers and memory ports (10_state.md R22, R23;
20_memory.md R62 to R64), raising an error and leaving the error state (60_exceptions.md R190, R192),
the two resets, and the frame every checked command runs in. -/

namespace Sys2Proof.Machine

variable {α : Type}

/-- The code of an error (60_exceptions.md R186). -/
def ErrCode.code : ErrCode → Byte
  | .illcmd => 1
  | .bpp => 2
  | .size => 3
  | .kgeom => 4
  | .line => 5
  | .outfull => 6

/-- `raise E(code)` during command word `w`: the error latch and nothing else (60_exceptions.md R190,
44_control.md R171). -/
def raiseError (c : ErrCode) (w : Word) (e : Engine α) : Engine α :=
  { e with err := true, ecode := c.code, ecmd := w }

/-- The effect of SRESET, which is the return from the error state (44_control.md R174,
60_exceptions.md R192): the latch, QIDX and OUT are cleared, everything else is kept. -/
def softReset (e : Engine α) : Engine α :=
  { e with err := false, ecode := 0, ecmd := 0, qidx := 0, out := [] }

/-- A hardware reset (70_reset_and_hazards.md R210): every register as in 10_state.md R43, the
memories with new unspecified contents. -/
def hardReset (e : Engine α) : Engine α := Engine.afterReset α (e.resets + 1)

/-- A command with checks: ignored while an error is latched (44_control.md R172); else the first
failing check is raised with the command word `w`; else `run` (60_exceptions.md R189, R190). -/
def checkedCommand (w : Word) (failing : Engine α → Option ErrCode) (run : Engine α → Engine α)
    (e : Engine α) : Engine α :=
  if e.err then e
  else
    match failing e with
    | some c => raiseError c w e
    | none => run e

/-- The number of the CMD register (10_state.md R22). -/
def cmdNumber : Word := 0x08

/-- Assigned bits of CTRL (10_state.md R25). -/
def ctrlMask : Word := 0x00000003
/-- Assigned bits of DIM (10_state.md R26). -/
def dimMask : Word := 0xFFFFFFFF
/-- Assigned bits of FMT (10_state.md R27). -/
def fmtMask : Word := 0x0000003F
/-- Assigned bits of KGEOM (10_state.md R28). -/
def kgeomMask : Word := 0x00000777

/-- The constant that ID reads (10_state.md R24). -/
def idConstant : Word := 0x44424501

/-- `RegRead(n)` (10_state.md R22 to R34): reserved bits, CMD and reserved numbers read 0. -/
def regRead (e : Engine α) (n : Word) : Word :=
  if n = 0x00 then idConstant
  else if n = 0x01 then e.ctrl &&& ctrlMask
  else if n = 0x02 then e.dim &&& dimMask
  else if n = 0x03 then e.fmt &&& fmtMask
  else if n = 0x04 then e.kgeom &&& kgeomMask
  else if n = 0x05 then e.status
  else if n = 0x06 then e.ecode.zeroExtend 32
  else if n = 0x07 then e.ecmd
  else if n = 0x08 then 0
  else if n = 0x09 then e.qidx.zeroExtend 32
  else if n = 0x0A then BitVec.ofNat 32 e.out.length
  else 0

/-- `RegWrite(n, w)` for every register but CMD (10_state.md R23): an RW register takes its assigned
bits; a write to an RO register or a reserved number changes nothing. -/
def regWrite (n w : Word) (e : Engine α) : Engine α :=
  if n = 0x01 then { e with ctrl := w &&& ctrlMask }
  else if n = 0x02 then { e with dim := w &&& dimMask }
  else if n = 0x03 then { e with fmt := w &&& fmtMask }
  else if n = 0x04 then { e with kgeom := w &&& kgeomMask }
  else e

/-- `MemRead` of an element of type `NUM` (20_memory.md R63). -/
def numRead (P : Params α) (e : Engine α) : NumAddr → α
  | .grid y x c => gridAt P e y x c
  | .pal i c => palAt P e i c
  | .ker r k => kerAt P e r k
  | .qin c => qinAt P e c

/-- `MemRead` of an 8-bit element (20_memory.md R63). -/
def byteRead (P : Params α) (e : Engine α) : ByteAddr → Byte
  | .idx s x => idxAt P e s x
  | .out b => outAt e b

/-- `MemRead(space, addr)` (20_memory.md R63). -/
def memRead (P : Params α) (e : Engine α) : Addr → Reply α
  | .num a => .num (numRead P e a)
  | .byte a => .byte (byteRead P e a)

/-- `MemWrite(space, addr, v)` (20_memory.md R64): replaces the element; OUT cannot be written. -/
def memWrite (e : Engine α) : Store α → Engine α
  | .num (.grid y x c) v => setGrid e y x c v
  | .num (.pal i c) v => { e with pal := e.pal.write (palKey i c) v }
  | .num (.ker r k) v => { e with ker := e.ker.write (kerKey r k) v }
  | .num (.qin c) v => { e with qin := e.qin.write c v }
  | .byte (.idx s x) v => setIdx e s x v
  | .byte (.out _) _ => e

end Sys2Proof.Machine
end

