-- ==== Sys2Proof/Machine/Bitplane.lean ====
section
/-! DEFINITION. The bitplane encoder: the ENCROW command, and the inverse reading of the layout
(43_bitplane.md). -/

namespace Sys2Proof.Machine

variable {α : Type}

/-- The byte of plane `p` for row `r` of tile `t`: pixel `x` at bit `7 - x` (43_bitplane.md R159). -/
def planeByte (P : Params α) (e : Engine α) (t p r : Nat) : Byte :=
  (List.range 8).foldl
    (fun acc x => acc ||| (bitOf (idxAt P e r (8 * t + x)) p <<< (7 - x))) 0#8

/-- The word for tile `t`, plane pair `(p, p+1)` and row `r`, little-endian: the even plane's byte
first (43_bitplane.md R159). -/
def planeWord (P : Params α) (e : Engine α) (t p r : Nat) : List Byte :=
  [planeByte P e t p r, planeByte P e t (p + 1) r]

/-- The words of one tile, plane pair by plane pair, row by row (43_bitplane.md R157). -/
def tileBytes (P : Params α) (e : Engine α) (t : Nat) : List Byte :=
  (List.range (e.bpp / 2)).flatMap fun q => (List.range 8).flatMap fun r => planeWord P e t (2 * q) r

/-- The bytes one ENCROW appends, tile by tile from the left (43_bitplane.md R157, R162). -/
def rowBytes (P : Params α) (e : Engine α) : List Byte :=
  (List.range e.tiles).flatMap (tileBytes P e)

/-- The number of bytes one ENCROW appends, as the capacity check computes it (43_bitplane.md R156). -/
def rowNeed (e : Engine α) : Nat := 16 * e.tiles * (e.bpp / 2)

/-- The checks of ENCROW in order (43_bitplane.md R156, 60_exceptions.md R189). -/
def encrowFailing (P : Params α) (e : Engine α) : Option ErrCode :=
  if !e.bppLegal then some .bpp
  else if e.width = 0 ∨ e.height = 0 then some .size
  else if P.outCap.val < e.out.length + rowNeed e then some .outfull
  else none

/-- ENCROW past its checks (43_bitplane.md R162). -/
def encrowRun (P : Params α) (e : Engine α) : Engine α := appendOut e (rowBytes P e)

/-- ENCROW on the hardware (43_bitplane.md R162). -/
def encrowCommand (P : Params α) (e : Engine α) : Engine α :=
  checkedCommand (encode .encrow) (encrowFailing P) (encrowRun P) e

/-- The meaning of `ENCROW`. -/
def execEncrow (s : State) : Host.Outcome State Fault Refusal :=
  .next { s with toEngine := encrowCommand Config.reference s.toEngine }

/-- The position of a word among the words one ENCROW appended (43_bitplane.md R163). -/
def wordPosition (bpp t p r : Nat) : Nat := (t * (bpp / 2) + p / 2) * 8 + r

/-- Bit `p` of the index of pixel `(r, 8t + x)`, read back from the stream whose row of words starts
at byte `base` (43_bitplane.md R163): even planes from the low byte, odd planes from the high. -/
def readBackBit (out : List Byte) (base bpp t p r x : Nat) : Byte :=
  bitOf (out.getD (base + 2 * wordPosition bpp t p r + p % 2) 0) (7 - x)

/-- The index read back from all planes (43_bitplane.md R163). -/
def readBackIndex (out : List Byte) (base bpp t r x : Nat) : Byte :=
  (List.range bpp).foldl (fun acc p => acc ||| (readBackBit out base bpp t p r x <<< p)) 0#8

end Sys2Proof.Machine
end

