-- ==== Sys2Proof/Machine/Quantize.lean ====
section
/-! DEFINITION. The vector quantizer: `nearest` and the NEAR command (41_quantize.md). -/

namespace Sys2Proof.Machine

variable {α : Type}

/-- One step of the search: entry `i` replaces the best so far only when strictly nearer
(41_quantize.md R125, 40_numerics.md R121). -/
def nearestStep (N : NumOps α) (dist : Nat → α) (best : α × Nat) (i : Nat) : α × Nat :=
  if numLt N (dist i) best.1 then (dist i, i) else best

/-- The least index below `n` among those of least `dist`, by the search of 41_quantize.md R125. -/
def leastIndex (N : NumOps α) (dist : Nat → α) (n : Nat) : Nat :=
  ((List.range' 1 (n - 1)).foldl (nearestStep N dist) (dist 0, 0)).2

/-- `dist2(a, i)` against palette entry `i` (40_numerics.md R114). -/
def palDist2 (P : Params α) (e : Engine α) (a : Colour α) (i : Nat) : α :=
  dist2 P.num e.channels a (palColour P e i)

/-- `nearest(a)` (41_quantize.md R125). -/
def nearest (P : Params α) (e : Engine α) (a : Colour α) : Nat :=
  leastIndex P.num (palDist2 P e a) e.paletteSize

/-- The checks of NEAR (41_quantize.md R127, 60_exceptions.md R188). -/
def nearFailing (e : Engine α) : Option ErrCode :=
  if e.bppLegal then none else some .bpp

/-- NEAR past its checks (41_quantize.md R127). -/
def nearRun (P : Params α) (e : Engine α) : Engine α :=
  { e with qidx := BitVec.ofNat 8 (nearest P e (qinColour P e)) }

/-- NEAR on the hardware (41_quantize.md R127). -/
def nearCommand (P : Params α) (e : Engine α) : Engine α :=
  checkedCommand (encode .near) nearFailing (nearRun P) e

/-- The meaning of `NEAR`. -/
def execNear (s : State) : Host.Outcome State Fault Refusal :=
  .next { s with toEngine := nearCommand Config.reference s.toEngine }

end Sys2Proof.Machine
end

