-- ==== Sys2Proof/Machine/Dither.lean ====
section
/-! DEFINITION. The dither engine: the DLINE command in both modes (42_dither.md). -/

namespace Sys2Proof.Machine

variable {α : Type}

/-- The slot of IDX that line `y` fills (42_dither.md R141). -/
def slotOf (y : Nat) : Nat := y % 8

/-- Record index `i` for column `x` of line `y` (42_dither.md R141). -/
def recordIndex (e : Engine α) (y x i : Nat) : Engine α :=
  setIdx e (slotOf y) x (BitVec.ofNat 8 i)

/-- One pixel of no-dither mode (42_dither.md R137). -/
def plainPixel (P : Params α) (y : Nat) (e : Engine α) (x : Nat) : Engine α :=
  recordIndex e y x (nearest P e (gridColour P e y x))

/-- No-dither mode (42_dither.md R137). -/
def plainLine (P : Params α) (y : Nat) (e : Engine α) : Engine α :=
  (List.range e.width).foldl (plainPixel P y) e

/-- The line is scanned right to left: serpentine and an odd line (42_dither.md R138). -/
def rightToLeft (e : Engine α) (y : Nat) : Bool := e.serpentine && y % 2 == 1

/-- The columns in scan order (42_dither.md R138). -/
def scanOrder (w : Nat) (rtl : Bool) : List Nat :=
  if rtl then (List.range w).reverse else List.range w

/-- The column offset of kernel column `k`, mirrored on a right-to-left line (42_dither.md R142). -/
def columnOffset (rtl : Bool) (origin k : Nat) : Int :=
  if rtl then (origin : Int) - k else (k : Int) - origin

/-- The coordinates `(ny, nx)` of the neighbour under kernel cell `(r, k)`, as integers that never
wrap (42_dither.md R142, 40_numerics.md R118). -/
def neighbour (e : Engine α) (rtl : Bool) (y x r k : Nat) : Int × Int :=
  ((y : Int) + r, (x : Int) + columnOffset rtl e.kernelOrigin k)

/-- The neighbour is inside the image (42_dither.md R143). -/
def insideImage (e : Engine α) (n : Int × Int) : Bool :=
  decide (0 ≤ n.1) && decide (n.1 < e.height) && decide (0 ≤ n.2) && decide (n.2 < e.width)

/-- Add `err[c] * wt` to one channel of a pixel (42_dither.md R146). -/
def addChannel (P : Params α) (ny nx : Nat) (wt : α) (err : Colour α) (e : Engine α) (c : Nat) :
    Engine α :=
  setGrid e ny nx c (contribution P.num (gridAt P e ny nx c) (err c) wt)

/-- Add the contribution to every channel of a pixel, with one weight (42_dither.md R146). -/
def addPixel (P : Params α) (ny nx : Nat) (wt : α) (err : Colour α) (e : Engine α) : Engine α :=
  (List.range e.channels).foldl (addChannel P ny nx wt err) e

/-- One kernel cell: skipped when its weight is zero (40_numerics.md R116), dropped when the neighbour
is outside the image (42_dither.md R143), else added (R146). -/
def spreadCell (P : Params α) (rtl : Bool) (y x : Nat) (err : Colour α) (e : Engine α)
    (cell : Nat × Nat) : Engine α :=
  if numEq P.num (kerAt P e cell.1 cell.2) P.num.zero then e
  else if insideImage e (neighbour e rtl y x cell.1 cell.2) then
    addPixel P (neighbour e rtl y x cell.1 cell.2).1.toNat (neighbour e rtl y x cell.1 cell.2).2.toNat
      (kerAt P e cell.1 cell.2) err e
  else e

/-- The cells of the kernel, row by row, column by column (42_dither.md R145, R147). -/
def kernelCells (e : Engine α) : List (Nat × Nat) :=
  (List.range e.kernelRows).flatMap fun r => (List.range e.kernelCols).map fun k => (r, k)

/-- The error of a clamped colour against its palette entry (42_dither.md R140). -/
def pixelError (P : Params α) (e : Engine α) (a : Colour α) (i : Nat) : Colour α :=
  fun c => P.num.sub (a c) (palAt P e i c)

/-- Spread an error over the kernel's cells (42_dither.md R142 to R146). -/
def spreadError (P : Params α) (rtl : Bool) (y x : Nat) (err : Colour α) (e : Engine α) :
    Engine α :=
  (kernelCells e).foldl (spreadCell P rtl y x err) e

/-- One pixel of diffusion mode: clamp, quantize, record, spread (42_dither.md R139 to R146). The
clamped value is not stored. -/
def ditherPixel (P : Params α) (rtl : Bool) (y : Nat) (e : Engine α) (x : Nat) : Engine α :=
  let a := clampedColour P e y x
  let i := nearest P e a
  spreadError P rtl y x (pixelError P e a i) (recordIndex e y x i)

/-- Diffusion mode (42_dither.md R147). -/
def diffuseLine (P : Params α) (y : Nat) (e : Engine α) : Engine α :=
  (scanOrder e.width (rightToLeft e y)).foldl (ditherPixel P (rightToLeft e y) y) e

/-- The checks of DLINE in order (42_dither.md R135, 60_exceptions.md R189). -/
def dlineFailing (y : Nat) (e : Engine α) : Option ErrCode :=
  if !e.bppLegal then some .bpp
  else if e.width = 0 ∨ e.height = 0 then some .size
  else if e.kernelOn = true ∧ e.kernelCols ≤ e.kernelOrigin then some .kgeom
  else if e.height ≤ y then some .line
  else none

/-- DLINE past its checks: the mode is `CTRL.KEN` (42_dither.md R136). -/
def dlineRun (P : Params α) (y : Nat) (e : Engine α) : Engine α :=
  if e.kernelOn then diffuseLine P y e else plainLine P y e

/-- DLINE on the hardware (42_dither.md R147). -/
def dlineCommand (P : Params α) (y : Nat) (e : Engine α) : Engine α :=
  checkedCommand (encode (.dline y)) (dlineFailing y) (dlineRun P y) e

/-- The meaning of `DLINE y`. -/
def execDline (y : Nat) (s : State) : Host.Outcome State Fault Refusal :=
  .next { s with toEngine := dlineCommand Config.reference y s.toEngine }

end Sys2Proof.Machine
end

