-- ==== Sys2Proof/Machine/Control.lean ====
section
/-! DEFINITION. NOP, SRESET, illegal words, and the whole-word and whole-transaction functions of the
hardware for every `Params` (44_control.md R170 to R174; 20_memory.md R62). -/

namespace Sys2Proof.Machine

variable {α : Type}

/-- NOP on the hardware (44_control.md R173). -/
def nopCommand (e : Engine α) : Engine α := e

/-- SRESET on the hardware: it runs while halted too and cannot fail (44_control.md R174). -/
def sresetCommand (e : Engine α) : Engine α := softReset e

/-- An illegal word: `E_ILLCMD`, or ignored while halted (60_exceptions.md R187, 44_control.md R172). -/
def illegalCommand (w : Word) (e : Engine α) : Engine α :=
  checkedCommand w (fun _ => some .illcmd) id e

/-- The meaning of `NOP`. -/
def execNop (s : State) : Host.Outcome State Fault Refusal :=
  .next { s with toEngine := nopCommand s.toEngine }

/-- The meaning of `SRESET`. -/
def execSreset (s : State) : Host.Outcome State Fault Refusal :=
  .next { s with toEngine := sresetCommand s.toEngine }

/-- `exec(w)` as 44_control.md R170 writes it, for every `Params`: the halted test first, then the
decoded command. -/
def execWord (P : Params α) (w : Word) (e : Engine α) : Engine α :=
  if e.err then
    if w = 0x00000004 then sresetCommand e else e
  else
    match decode w with
    | .error _ => raiseError .illcmd w e
    | .ok .nop => nopCommand e
    | .ok (.dline y) => dlineCommand P y e
    | .ok .near => nearCommand P e
    | .ok .encrow => encrowCommand P e
    | .ok .sreset => sresetCommand e

/-- One event on the hardware, for every `Params`: the new hardware state and what the host gets back
(20_memory.md R62, 70_reset_and_hazards.md R210). -/
def engineEvent (P : Params α) (e : Engine α) : Event α → Engine α × Reply α
  | .hardReset => (hardReset e, .none)
  | .txn (.regRead n) => (e, .word (regRead e n))
  | .txn (.regWrite n w) => (if n = cmdNumber then execWord P w e else regWrite n w e, .none)
  | .txn (.memRead a) => (e, memRead P e a)
  | .txn (.memWrite st) => (memWrite e st, .none)

/-- A run of a host program for every `Params`: its events applied in order
(10_state.md R21, 70_reset_and_hazards.md R222). -/
def engineRun (P : Params α) (script : List (Event α)) (e : Engine α) : Engine α :=
  script.foldl (fun e ev => (engineEvent P e ev).1) e

end Sys2Proof.Machine
end

