-- ==== Sys2Proof/Machine/Dispatch.lean ====
section
/-! DEFINITION. The dispatch of a command to its meaning, one arm per constructor of Instr. -/

namespace Sys2Proof.Machine

/-- The meaning of a command (44_control.md R170). -/
def exec (i : Instr) (s : State) : Host.Outcome State Fault Refusal :=
  match i with
  | .nop => Sys2Proof.Machine.execNop s
  | .dline y => Sys2Proof.Machine.execDline y s
  | .near => Sys2Proof.Machine.execNear s
  | .encrow => Sys2Proof.Machine.execEncrow s
  | .sreset => Sys2Proof.Machine.execSreset s

end Sys2Proof.Machine
end

