-- ==== Sys2Proof/Machine/Issue.lean ====
section
/-! DEFINITION. What one event of the outside does to the machine: a write to CMD issues a command,
the other transactions read or write a register or an element, a hardware reset resets
(20_memory.md R62, 44_control.md R170, 70_reset_and_hazards.md R210). -/

namespace Sys2Proof.Machine

/-- A write of `w` to CMD: the decoded command runs to completion, an illegal word raises
(44_control.md R170, 10_state.md R32). -/
def issue (w : Word) (s : State) : Host.Outcome State Fault Refusal :=
  match decode w with
  | .ok i => exec i s
  | .error _ => .next { s with toEngine := illegalCommand w s.toEngine }

/-- The hardware after an event that is no write to CMD, with what the host gets back. -/
def quietEvent (s : State) (ev : Event NUM) : State :=
  { s with
    toEngine := (engineEvent Config.reference s.toEngine ev).1
    reply := (engineEvent Config.reference s.toEngine ev).2 }

/-- One event. A write to CMD goes through `exec`; it returns nothing to the host. -/
def runEvent (ev : Event NUM) (s : State) : Host.Outcome State Fault Refusal :=
  match ev with
  | .txn (.regWrite n w) =>
    if n = cmdNumber then issue w { s with reply := .none } else quietEvent s ev |> .next
  | .txn (.regRead _) => .next (quietEvent s ev)
  | .txn (.memRead _) => .next (quietEvent s ev)
  | .txn (.memWrite _) => .next (quietEvent s ev)
  | .hardReset => .next (quietEvent s ev)

/-- Take the next event, if there is one; an idle engine loses no state (60_exceptions.md R205). -/
def takeEvent (s : State) : Host.Outcome State Fault Refusal :=
  match s.events with
  | [] => .next s
  | ev :: rest => runEvent ev { s with events := rest }

/-- The command word of `nbits` bits `w`, put in front of the host's events as a write to CMD. -/
def fetchEvents (events : List (Event NUM)) (nbits w : Nat) : List (Event NUM) :=
  .txn (.regWrite cmdNumber (BitVec.ofNat 32 (w % 2 ^ nbits))) :: events

end Sys2Proof.Machine
end

