-- ==== Sys2Proof/Machine/Step.lean ====
section
/-! DEFINITION. One step of the machine: its next event, and how the host places a command word. -/

namespace Sys2Proof.Machine

/-- One step: the next event of the outside, completely (20_memory.md R62). -/
def step (s : State) : Host.Outcome State Fault Refusal := takeEvent s

/-- `s` with the command word `w` as the host's next transaction, a write to CMD (log entry 4). -/
def State.withFetchWord (s : State) (nbits w : Nat) : State :=
  { s with events := fetchEvents s.events nbits w }

end Sys2Proof.Machine
end

