-- ==== Sys2Proof/Machine/Spaces.lean ====
section
/-! DEFINITION. The numbers the hardware fixes for its six element spaces (20_memory.md R60, R68), and
the memory ports by number: which address a space id and coordinates name, and back. -/

namespace Sys2Proof.Machine

/-- The id of a space (20_memory.md R60). -/
def spaceId : Space → Nat
  | .grid => 0
  | .pal => 1
  | .ker => 2
  | .idx => 3
  | .qin => 4
  | .out => 5

/-- The space an id names; no other number names one (20_memory.md R68). -/
def spaceOfId : Nat → Option Space
  | 0 => some .grid
  | 1 => some .pal
  | 2 => some .ker
  | 3 => some .idx
  | 4 => some .qin
  | 5 => some .out
  | _ => none

/-- The space of an address (20_memory.md R60). REG is no space of these: it has its own
transactions. -/
def addrSpace : Addr → Space
  | .num (.grid _ _ _) => .grid
  | .num (.pal _ _) => .pal
  | .num (.ker _ _) => .ker
  | .num (.qin _) => .qin
  | .byte (.idx _ _) => .idx
  | .byte (.out _) => .out

/-- The coordinates of an address, in the order of the table (20_memory.md R60). -/
def addrCoords : Addr → List Nat
  | .num (.grid y x c) => [y, x, c]
  | .num (.pal i c) => [i, c]
  | .num (.ker r k) => [r, k]
  | .num (.qin c) => [c]
  | .byte (.idx s x) => [s, x]
  | .byte (.out b) => [b]

/-- One coordinate of a range of `n` values (20_memory.md R60). -/
def coord (n v : Nat) : Option (Fin n) := if h : v < n then some ⟨v, h⟩ else none

/-- The address in GRID that coordinates name. -/
def gridAddr : List Nat → Option Addr
  | [y, x, c] =>
    (coord 65536 y).bind fun y => (coord 65536 x).bind fun x => (coord 4 c).map fun c =>
      .num (.grid y x c)
  | _ => none

/-- The address in PAL that coordinates name. -/
def palAddr : List Nat → Option Addr
  | [i, c] => (coord 256 i).bind fun i => (coord 4 c).map fun c => .num (.pal i c)
  | _ => none

/-- The address in KER that coordinates name. -/
def kerAddr : List Nat → Option Addr
  | [r, k] => (coord 8 r).bind fun r => (coord 8 k).map fun k => .num (.ker r k)
  | _ => none

/-- The address in IDX that coordinates name. -/
def idxAddr : List Nat → Option Addr
  | [s, x] => (coord 8 s).bind fun s => (coord 65536 x).map fun x => .byte (.idx s x)
  | _ => none

/-- The address in QIN that coordinates name. -/
def qinAddr : List Nat → Option Addr
  | [c] => (coord 4 c).map fun c => .num (.qin c)
  | _ => none

/-- The address in OUT that coordinates name. -/
def outAddr : List Nat → Option Addr
  | [b] => (coord 4294967296 b).map fun b => .byte (.out b)
  | _ => none

/-- The address that coordinates name in a space (20_memory.md R60; log entry 14). -/
def addrIn : Space → List Nat → Option Addr
  | .grid, cs => gridAddr cs
  | .pal, cs => palAddr cs
  | .ker, cs => kerAddr cs
  | .idx, cs => idxAddr cs
  | .qin, cs => qinAddr cs
  | .out, cs => outAddr cs

/-- The address of a memory port that a space id and coordinates name (20_memory.md R60, R68). -/
def portAddr (id : Nat) (cs : List Nat) : Option Addr := (spaceOfId id).bind fun sp => addrIn sp cs

variable {α : Type}

/-- The address a `MemWrite` names (20_memory.md R64). -/
def storeAddr : Store α → Addr
  | .num a _ => .num a
  | .byte a _ => .byte a

/-- The `MemRead` of a space id and coordinates (20_memory.md R62, R63). -/
def portRead (id : Nat) (cs : List Nat) : Option (Txn α) := (portAddr id cs).map .memRead

/-- The `MemWrite` of a `NUM` to an address; an 8-bit element takes none (20_memory.md R64). -/
def numStore (v : α) : Addr → Option (Txn α)
  | .num a => some (.memWrite (.num a v))
  | .byte _ => none

/-- The `MemWrite` of an 8-bit value to an address; a `NUM` element takes none (20_memory.md R64). -/
def byteStore (v : Byte) : Addr → Option (Txn α)
  | .num _ => none
  | .byte a => some (.memWrite (.byte a v))

/-- The `MemWrite` of a `NUM` to a space id and coordinates (20_memory.md R62, R64). -/
def portWriteNum (id : Nat) (cs : List Nat) (v : α) : Option (Txn α) :=
  (portAddr id cs).bind (numStore v)

/-- The `MemWrite` of an 8-bit value to a space id and coordinates (20_memory.md R62, R64). -/
def portWriteByte (id : Nat) (cs : List Nat) (v : Byte) : Option (Txn α) :=
  (portAddr id cs).bind (byteStore v)

end Sys2Proof.Machine
end

