-- ==== Sys2Proof/Machine/Script.lean ====
section
/-! DEFINITION. The host-script syntax of the spec as lists of events: command lines, `wreg`, the
pseudo-instructions with their expansions, and the window read (30_encoding.md R97, R98;
70_reset_and_hazards.md R217). Arguments past the range of their field or coordinate are not settled
by R98; what the expansions give there is the model's DESIGN CHOICE (log entry 15). -/

namespace Sys2Proof.Machine

variable {α : Type}

/-- The text of a command line (30_encoding.md R97). -/
def commandText : Instr → String
  | .nop => "NOP"
  | .dline y => "DLINE " ++ toString y
  | .near => "NEAR"
  | .encrow => "ENCROW"
  | .sreset => "SRESET"

/-- `wreg n, w` (30_encoding.md R98). -/
def wreg (n w : Word) : Event α := .txn (.regWrite n w)

/-- `rreg n` (30_encoding.md R98). -/
def rreg (n : Word) : Event α := .txn (.regRead n)

/-- `cmd w`: a raw word to CMD (30_encoding.md R98). -/
def rawCommand (w : Word) : Event α := wreg cmdNumber w

/-- A command line (30_encoding.md R98). A line index past 65535 has no command word: log entry 15. -/
def commandLine (i : Instr) : Event α := rawCommand (encode i)

/-- `setdim W, H` (30_encoding.md R98). `W` or `H` past 65535: log entry 15. -/
def setdim (w h : Nat) : Event α := wreg 0x02 (BitVec.ofNat 32 h <<< 16 ||| BitVec.ofNat 32 w)

/-- `setfmt BPP, CH` (30_encoding.md R98). `CH = 0` gives the field 0, as `CH = 1` does; that and values
wider than their fields: log entry 15. -/
def setfmt (bpp ch : Nat) : Event α :=
  wreg 0x03 (BitVec.ofNat 32 (ch - 1) <<< 4 ||| BitVec.ofNat 32 bpp)

/-- `setkgeom KH, KW, KX` (30_encoding.md R98). `KH = 0` or `KW = 0` gives the field 0, as 1 does; that
and values wider than their fields: log entry 15. -/
def setkgeom (kh kw kx : Nat) : Event α :=
  wreg 0x04
    (BitVec.ofNat 32 kx <<< 8 ||| BitVec.ofNat 32 (kw - 1) <<< 4 ||| BitVec.ofNat 32 (kh - 1))

/-- `setctrl KEN, SERP` (30_encoding.md R98). Values other than 0 and 1: log entry 15. -/
def setctrl (ken serp : Nat) : Event α :=
  wreg 0x01 (BitVec.ofNat 32 serp <<< 1 ||| BitVec.ofNat 32 ken)

/-- `wmem` of a `NUM` (30_encoding.md R98). -/
def wmemNum (a : NumAddr) (v : α) : Event α := .txn (.memWrite (.num a v))

/-- `rmem` (30_encoding.md R98). -/
def rmem (a : Addr) : Event α := .txn (.memRead a)

/-- `loadrow GRID[y], c, v0 v1 ...` (30_encoding.md R98). Past 65536 values the coordinate starts again
at 0: log entry 15. -/
def loadrow (y : Fin 65536) (c : Fin 4) (vs : List α) : List (Event α) :=
  vs.zipIdx.map fun v => wmemNum (.grid y (Fin.ofNat 65536 v.2) c) v.1

/-- `loadpal c, v0 v1 ...` (30_encoding.md R98). Past 256 values the coordinate starts again at 0:
log entry 15. -/
def loadpal (c : Fin 4) (vs : List α) : List (Event α) :=
  vs.zipIdx.map fun v => wmemNum (.pal (Fin.ofNat 256 v.2) c) v.1

/-- `loadker r, v0 v1 ...` (30_encoding.md R98). Past 8 values the coordinate starts again at 0:
log entry 15. -/
def loadker (r : Fin 8) (vs : List α) : List (Event α) :=
  vs.zipIdx.map fun v => wmemNum (.ker r (Fin.ofNat 8 v.2)) v.1

/-- `loadidx s, v0 v1 ...` (30_encoding.md R98). Past 65536 values the coordinate starts again
at 0: log entry 15. -/
def loadidx (s : Fin 8) (vs : List Byte) : List (Event α) :=
  vs.zipIdx.map fun v => .txn (.memWrite (.byte (.idx s (Fin.ofNat 65536 v.2)) v.1))

/-- The lines of the window of radius `rad` around line `y`, clamped to the image
(00_scope.md R15, 70_reset_and_hazards.md R217). -/
def windowLines (height y rad : Nat) : List Nat :=
  (List.range height).filter fun l => decide (y ≤ l + rad) && decide (l ≤ y + rad)

/-- A window read: the host reads every element of the window's lines (00_scope.md R15). -/
def windowReads (e : Engine α) (y rad : Nat) : List (Event α) :=
  (windowLines e.height y rad).flatMap fun l => (List.range e.width).flatMap fun x =>
    (List.range e.channels).map fun c =>
      rmem (.num (.grid (Fin.ofNat 65536 l) (Fin.ofNat 65536 x) (Fin.ofNat 4 c)))

end Sys2Proof.Machine
end

