-- ==== Sys2Proof/Safety.lean ====
section
/-! DEFINITION. What counts as a good state and a good run, in the terms the claims use: the invariant
of the hardware, the absence of a latched error (70_reset_and_hazards.md R222), what the host must
have loaded (R212, R213), and the input contract of the grid (00_scope.md R12). -/

namespace Sys2Proof.Machine

variable {α : Type}

/-- The invariant of the hardware. -/
structure EngineInv (P : Params α) (e : Engine α) : Prop where
  /-- The memories are in canonical form inside the sizes of 20_memory.md R61. -/
  gridWf : e.grid.wf gridSize = true
  palWf : e.pal.wf palSize = true
  kerWf : e.ker.wf kerSize = true
  qinWf : e.qin.wf qinSize = true
  idxWf : e.idx.wf idxSize = true
  /-- Reserved bits of the RW registers hold 0 (10_state.md R23). -/
  ctrlReserved : e.ctrl &&& ~~~ctrlMask = 0
  fmtReserved : e.fmt &&& ~~~fmtMask = 0
  kgeomReserved : e.kgeom &&& ~~~kgeomMask = 0
  /-- ECODE and ECMD are 0 when no error is latched (10_state.md R30, R31). -/
  latchClear : e.err = false → e.ecode = 0 ∧ e.ecmd = 0
  /-- A latched error has one of the codes of 60_exceptions.md R186, and it is `E_ILLCMD` exactly
  when ECMD is an illegal word. -/
  latchCode : e.err = true → ∃ c : ErrCode, e.ecode = c.code ∧
    (c = .illcmd ↔ ∃ why, decode e.ecmd = .error why)
  /-- `OUTLEN <= OUTCAP` always (40_numerics.md R119). -/
  outBound : e.out.length ≤ P.outCap.val
  /-- OUT holds whole plane-pair rows of words (43_bitplane.md R160), so every word starts at an even
  offset (20_memory.md R66). -/
  outWhole : 16 ∣ e.out.length

/-- The invariant of the machine: that of its hardware at the reference build. -/
def State.Inv (s : State) : Prop := EngineInv Config.reference s.toEngine

/-- A run that has gone right: no error latched at its end (70_reset_and_hazards.md R222). -/
def Engine.clean (e : Engine α) : Bool := !e.err

/-- Every element of the image has been written since the last hardware reset
(70_reset_and_hazards.md R212 item 4, R213). -/
def gridLoaded (e : Engine α) : Prop :=
  ∀ y < e.height, ∀ x < e.width, ∀ c < e.channels, (e.grid.read (gridKey y x c)).isSome = true

/-- Every palette entry in use has been written (70_reset_and_hazards.md R212 item 5). -/
def palLoaded (e : Engine α) : Prop :=
  ∀ i < e.paletteSize, ∀ c < e.channels, (e.pal.read (palKey i c)).isSome = true

/-- Every kernel cell in use has been written (70_reset_and_hazards.md R212 item 3). -/
def kerLoaded (e : Engine α) : Prop :=
  ∀ r < e.kernelRows, ∀ k < e.kernelCols, (e.ker.read (kerKey r k)).isSome = true

/-- The operand of NEAR has been written (70_reset_and_hazards.md R212). -/
def qinLoaded (e : Engine α) : Prop :=
  ∀ c < e.channels, (e.qin.read c).isSome = true

/-- The columns ENCROW encodes have been written in all eight slots (70_reset_and_hazards.md R212). -/
def idxLoaded (e : Engine α) : Prop :=
  ∀ s < 8, ∀ x < 8 * e.tiles, (e.idx.read (idxKey s x)).isSome = true

/-- The input contract for one line: every channel value in `[0,1]` (00_scope.md R12). -/
def lineInUnit (P : Params NUM) (e : Engine NUM) (y : Nat) : Prop :=
  ∀ x < e.width, ∀ c < e.channels, 0 ≤ gridAt P e y x c ∧ gridAt P e y x c ≤ 1

/-- DLINE `y` passes its checks (60_exceptions.md R188): the premise of its completion statements. -/
structure DlineReady (e : Engine α) (y : Nat) : Prop where
  running : e.err = false
  depth : e.bpp = 2 ∨ e.bpp = 4 ∨ e.bpp = 8
  width : 0 < e.width
  height : 0 < e.height
  geometry : e.kernelOn = true → e.kernelOrigin < e.kernelCols
  line : y < e.height

end Sys2Proof.Machine
end

