-- ==== Sys2Proof/Certificates/Slice0/Obligations.lean ====
section
/-! DEFINITION. The statements for the provers, from the numbered rules of spec/. -/

open Sys2Proof Sys2Proof.Machine

/-! ### Encoding (30_encoding.md) -/

/-- R96: `encode` is the inverse of `decode` on the legal commands and the legal words. -/
def Obligations.DecodeAndEncodeAreInverse : Prop :=
  (∀ i : Instr, i.WellFormed → decode (encode i) = .ok i) ∧
  (∀ (w : Word) (i : Instr), decode w = .ok i → i.WellFormed ∧ encode i = w)

/-- R91: a word spells the command of a row exactly when `(w AND mask) = match`, at most one row
matches, and the other 251 values of `op` are illegal; the line index is bits 23:8. The five masks
and matches are written out from the table. -/
def Obligations.LegalWordsMatchTheOpcodeMap : Prop :=
  ∀ w : Word,
    (decode w = .ok .nop ↔ w &&& 0xFFFFFFFF#32 = 0x00000000#32) ∧
    ((∃ y, decode w = .ok (.dline y)) ↔ w &&& 0xFF0000FF#32 = 0x00000001#32) ∧
    (∀ y, decode w = .ok (.dline y) → y = w.toNat / 256 % 65536) ∧
    (decode w = .ok .near ↔ w &&& 0xFFFFFFFF#32 = 0x00000002#32) ∧
    (decode w = .ok .encrow ↔ w &&& 0xFFFFFFFF#32 = 0x00000003#32) ∧
    (decode w = .ok .sreset ↔ w &&& 0xFFFFFFFF#32 = 0x00000004#32) ∧
    (4 < w.toNat % 256 → ∃ why, decode w = .error why) ∧
    (w &&& 0xFF0000FF#32 = 0x00000001#32 →
      w ≠ 0x00000000 ∧ w ≠ 0x00000002 ∧ w ≠ 0x00000003 ∧ w ≠ 0x00000004)

/-- R94: which words are illegal (op above 4, or rsv not 0, or imm not 0 on a command other than
DLINE), that an illegal word written to CMD with no error latched raises `E_ILLCMD` (code 1) and
changes nothing else of the hardware, and that every other word is legal. -/
def Obligations.IllegalWordsRaiseIllcmd : Prop :=
  ∀ w : Word,
    (w.toNat / 16777216 ≠ 0 ∨ 4 < w.toNat % 256 ∨
        (w.toNat % 256 ≠ 1 ∧ w.toNat / 256 % 65536 ≠ 0) →
      (∃ why, decode w = .error why) ∧
      ∀ (s : State) (rest : List (Event NUM)),
        s.events = .txn (.regWrite 0x08 w) :: rest → s.err = false →
        step s = .next
          { s with err := true, ecode := 1, ecmd := w, events := rest, reply := .none }) ∧
    (w.toNat / 16777216 = 0 → w.toNat % 256 ≤ 4 →
      (w.toNat % 256 = 1 ∨ w.toNat / 256 % 65536 = 0) → ∃ i, decode w = .ok i)

/-- R97: the words of the syntax table, written out, decode to the commands they stand for. -/
def Obligations.SyntaxTableWordsDecode : Prop :=
  decode 0x00000000 = .ok .nop ∧ decode 0x00000001 = .ok (.dline 0) ∧
  decode 0x00000101 = .ok (.dline 1) ∧ decode 0x00000701 = .ok (.dline 7) ∧
  decode 0x0000FF01 = .ok (.dline 255) ∧ decode 0x00FFFF01 = .ok (.dline 65535) ∧
  decode 0x00000002 = .ok .near ∧ decode 0x00000003 = .ok .encrow ∧
  decode 0x00000004 = .ok .sreset

/-! ### Dispatch and the halted state (44_control.md, 60_exceptions.md) -/

/-- A write of a legal word to CMD runs the decoded command, in the state with that transaction taken
and no reply pending. -/
def Obligations.StepRunsTheDecodedCommand : Prop :=
  ∀ (s : State) (rest : List (Event NUM)) (w : Word) (i : Instr),
    s.events = .txn (.regWrite 0x08 w) :: rest → decode w = .ok i →
    step s = exec i { s with events := rest, reply := .none }

/-- R170: what a write of `w` to CMD does to the hardware, written as the rule writes `exec(w)`: the
halted test first, then the decoded command. `step` reaches the same through the meanings, each of
which makes the halted test itself. -/
def Obligations.CommandWriteFollowsTheDispatchRule : Prop :=
  ∀ (s : State) (rest : List (Event NUM)) (w : Word),
    s.events = .txn (.regWrite 0x08 w) :: rest →
    step s = .next
      { s with
        events := rest
        reply := .none
        toEngine :=
          if s.err = true then
            if w = 0x00000004 then softReset s.toEngine else s.toEngine
          else
            match decode w with
            | .error _ => raiseError .illcmd w s.toEngine
            | .ok .nop => s.toEngine
            | .ok (.dline y) => dlineCommand Config.reference y s.toEngine
            | .ok .near => nearCommand Config.reference s.toEngine
            | .ok .encrow => encrowCommand Config.reference s.toEngine
            | .ok .sreset => softReset s.toEngine }

/-- R172: while an error is latched every word but 0x00000004 changes no state of the hardware, and
every command but SRESET changes nothing at all. -/
def Obligations.HaltedEngineIgnoresOtherWords : Prop :=
  (∀ (s : State) (rest : List (Event NUM)) (w : Word),
    s.err = true → s.events = .txn (.regWrite 0x08 w) :: rest → w ≠ 0x00000004 →
    step s = .next { s with events := rest, reply := .none }) ∧
  (∀ (s : State) (i : Instr), s.err = true → i ≠ .sreset → exec i s = .next s)

/-- R191, R192: one step from the halted state either keeps it, with ECODE and ECMD of the first
error, or was the exact word 0x00000004 written to CMD, which clears the latch, QIDX and OUT and
leaves the other hardware state, or was a hardware reset. -/
def Obligations.OnlySresetOrHardwareResetLeavesHalted : Prop :=
  ∀ (s t : State), s.err = true → step s = .next t →
    (t.err = true ∧ t.ecode = s.ecode ∧ t.ecmd = s.ecmd) ∨
    (∃ rest, s.events = .txn (.regWrite 0x08 0x00000004) :: rest ∧
      t.toEngine = { s.toEngine with err := false, ecode := 0, ecmd := 0, qidx := 0, out := [] }) ∨
    (∃ rest, s.events = .hardReset :: rest ∧ t.err = false)

/-- R189, with the conditions of R188 and the codes of R186: the first failing check of a command is
the one recorded, with the command's word, and nothing else changes. -/
def Obligations.FirstFailingCheckIsRaised : Prop :=
  ∀ s : State, s.err = false →
    (∀ y : Nat,
      (¬(s.bpp = 2 ∨ s.bpp = 4 ∨ s.bpp = 8) →
        exec (.dline y) s =
          .next { s with err := true, ecode := 2, ecmd := encode (.dline y) }) ∧
      (s.bpp = 2 ∨ s.bpp = 4 ∨ s.bpp = 8 → s.width = 0 ∨ s.height = 0 →
        exec (.dline y) s =
          .next { s with err := true, ecode := 3, ecmd := encode (.dline y) }) ∧
      (s.bpp = 2 ∨ s.bpp = 4 ∨ s.bpp = 8 → 0 < s.width → 0 < s.height →
        s.kernelOn = true → s.kernelCols ≤ s.kernelOrigin →
        exec (.dline y) s =
          .next { s with err := true, ecode := 4, ecmd := encode (.dline y) }) ∧
      (s.bpp = 2 ∨ s.bpp = 4 ∨ s.bpp = 8 → 0 < s.width → 0 < s.height →
        (s.kernelOn = true → s.kernelOrigin < s.kernelCols) → s.height ≤ y →
        exec (.dline y) s =
          .next { s with err := true, ecode := 5, ecmd := encode (.dline y) })) ∧
    (¬(s.bpp = 2 ∨ s.bpp = 4 ∨ s.bpp = 8) →
      exec .near s = .next { s with err := true, ecode := 2, ecmd := 0x00000002 } ∧
      exec .encrow s = .next { s with err := true, ecode := 2, ecmd := 0x00000003 }) ∧
    (s.bpp = 2 ∨ s.bpp = 4 ∨ s.bpp = 8 → s.width = 0 ∨ s.height = 0 →
      exec .encrow s = .next { s with err := true, ecode := 3, ecmd := 0x00000003 }) ∧
    (s.bpp = 2 ∨ s.bpp = 4 ∨ s.bpp = 8 → 0 < s.width → 0 < s.height →
      4294967295 < s.out.length + 16 * (s.width / 8) * (s.bpp / 2) →
      exec .encrow s = .next { s with err := true, ecode := 6, ecmd := 0x00000003 })

/-- R190: whenever a word written to CMD with no error latched ends with one latched, the state is the
one before it with STATUS.ERR, ECODE and ECMD changed and nothing else of the hardware, ECODE is a
code of R186 and ECMD is the word; the same of a command given to `exec`. -/
def Obligations.RaisingChangesOnlyTheLatch : Prop :=
  (∀ (s t : State) (rest : List (Event NUM)) (w : Word),
    s.err = false → s.events = .txn (.regWrite 0x08 w) :: rest → step s = .next t →
    t.err = true →
    1 ≤ t.ecode.toNat ∧ t.ecode.toNat ≤ 6 ∧
      t = { s with err := true, ecode := t.ecode, ecmd := w, events := rest, reply := .none }) ∧
  (∀ (s t : State) (i : Instr), s.err = false → exec i s = .next t → t.err = true →
    2 ≤ t.ecode.toNat ∧ t.ecode.toNat ≤ 6 ∧
      t = { s with err := true, ecode := t.ecode, ecmd := encode i })

/-- R173: NOP answers the state it was given, in every state; its word is 0x00000000, and 0x00000100
is not NOP but illegal. -/
def Obligations.NopChangesNothing : Prop :=
  (∀ s : State, exec .nop s = .next s) ∧ encode .nop = 0x00000000 ∧
  decode 0x00000000 = .ok .nop ∧ ∃ why, decode 0x00000100 = .error why

/-- R174: SRESET clears STATUS.ERR, ECODE, ECMD, QIDX and OUT and leaves everything else, in every
state, halted or not; two in a row are the same as one; no other command runs while halted; its word
is exactly 0x00000004, and 0x01000004 is ignored while halted and raises `E_ILLCMD` otherwise. -/
def Obligations.SresetClearsLatchQidxAndOut : Prop :=
  (∀ s : State,
    exec .sreset s =
      .next { s with err := false, ecode := 0, ecmd := 0, qidx := 0, out := [] } ∧
    ∀ t, exec .sreset s = .next t → exec .sreset t = .next t) ∧
  (∀ (s : State) (i : Instr), s.err = true → i ≠ .sreset → exec i s = .next s) ∧
  (∀ w : Word, decode w = .ok .sreset ↔ w = 0x00000004) ∧ encode .sreset = 0x00000004 ∧
  (∀ (s : State) (rest : List (Event NUM)),
    s.events = .txn (.regWrite 0x08 0x01000004) :: rest →
    (s.err = true → step s = .next { s with events := rest, reply := .none }) ∧
    (s.err = false → step s = .next
      { s with err := true, ecode := 1, ecmd := 0x01000004, events := rest, reply := .none }))

/-! ### Numerics and the quantizer (40_numerics.md, 41_quantize.md) -/

/-- R113, for every `NUM` with a total order and `0 <= 1`: the three cases of `clamp01`, its values at
0 and 1, idempotent and non-decreasing, applied to each channel on its own. The reference `NUM` is
one of these. -/
def Obligations.ClampIsMonotoneAndIdempotent : Prop :=
  ∀ (α : Type) (N : NumOps α), N.TotalOrder → N.le N.zero N.one = true →
    (∀ v, numLt N v N.zero = true → clamp01 N v = N.zero) ∧
    (∀ v, numLt N N.one v = true → clamp01 N v = N.one) ∧
    (∀ v, N.le N.zero v = true → N.le v N.one = true → clamp01 N v = v) ∧
    clamp01 N N.zero = N.zero ∧ clamp01 N N.one = N.one ∧
    (∀ v, clamp01 N (clamp01 N v) = clamp01 N v) ∧
    (∀ u v, N.le u v = true → N.le (clamp01 N u) (clamp01 N v) = true) ∧
    (∀ (P : Params α) (e : Engine α) (y x c : Nat), P.num = N →
      clampedColour P e y x c = clamp01 N (gridAt P e y x c))

/-- R114: the distance to palette entry `i` is summed over the channels in use in ascending order from
0, for every `NUM`; under the reference it is the sum of the squared differences, and the Euclidean
distances (its square roots) of two colours compare as it does, ties included. -/
def Obligations.DistanceIsTheSumOfSquares : Prop :=
  (∀ (α : Type) (P : Params α) (e : Engine α) (a : Colour α) (i : Nat),
    palDist2 P e a i = dist2 P.num e.channels a (fun c => palAt P e i c)) ∧
  (∀ (α : Type) (N : NumOps α) (a p : Colour α),
    dist2 N 0 a p = N.zero ∧
    ∀ ch, dist2 N (ch + 1) a p =
      N.add (dist2 N ch a p) (N.mul (N.sub (a ch) (p ch)) (N.sub (a ch) (p ch)))) ∧
  (∀ (ch : Nat) (a p q : Colour NUM),
    dist2 Config.rationals ch a p = ∑ c ∈ Finset.range ch, (a c - p c) ^ 2 ∧
    (Real.sqrt ((dist2 Config.rationals ch a p : Rat) : ℝ) ≤
        Real.sqrt ((dist2 Config.rationals ch a q : Rat) : ℝ) ↔
      dist2 Config.rationals ch a p ≤ dist2 Config.rationals ch a q))

/-- R126 (a): for every `NUM` with a total order, `nearest` returns an index below `2^BPP` of least
`dist2`, the least such index, and these two facts determine it. -/
def Obligations.NearestIsTheLeastIndexOfLeastDistance : Prop :=
  ∀ (α : Type) (P : Params α) (e : Engine α) (a : Colour α), P.num.TotalOrder →
    ∀ k : Nat, k = nearest P e a ↔
      k < 2 ^ e.bpp ∧
      (∀ i < 2 ^ e.bpp, P.num.le (palDist2 P e a k) (palDist2 P e a i) = true) ∧
      (∀ i < k, P.num.le (palDist2 P e a i) (palDist2 P e a k) = false)

/-- R126 (b): of two equal palette entries `nearest` never returns the higher. -/
def Obligations.NearestNeverPicksTheHigherDuplicate : Prop :=
  ∀ (α : Type) (P : Params α) (e : Engine α) (a : Colour α) (i j : Nat), P.num.TotalOrder →
    i < j → (∀ c < e.channels, palAt P e i c = palAt P e j c) → nearest P e a ≠ j

/-- R126 (c), with rational arithmetic: a colour equal to an entry in use has `dist2` 0 to it, and
`nearest` returns the least index whose entry equals the colour. -/
def Obligations.NearestFindsTheExactMatch : Prop :=
  ∀ (P : Params NUM) (e : Engine NUM) (a : Colour NUM) (k : Nat), P.num = Config.rationals →
    k < 2 ^ e.bpp → (∀ c < e.channels, a c = palAt P e k c) →
    palDist2 P e a k = 0 ∧ nearest P e a ≤ k ∧
    (∀ c < e.channels, palAt P e (nearest P e a) c = a c) ∧
    (∀ i < nearest P e a, ∃ c < e.channels, palAt P e i c ≠ a c)

/-- R126 (e), R117: `nearest` depends on the channels below CH of the colour and of the palette
entries below `2^BPP`, on FMT, and on nothing else. -/
def Obligations.NearestDependsOnlyOnItsOperands : Prop :=
  ∀ (α : Type) (P P' : Params α) (e e' : Engine α) (a a' : Colour α), P'.num = P.num →
    e'.bpp = e.bpp → e'.channels = e.channels →
    (∀ i < 2 ^ e.bpp, ∀ c < e.channels, palAt P' e' i c = palAt P e i c) →
    (∀ c < e.channels, a' c = a c) →
    nearest P' e' a' = nearest P e a

/-- R127: NEAR with a legal depth and no error latched writes `nearest` of the unclamped QIN into
QIDX, zero extended when read, and changes nothing else. -/
def Obligations.NearWritesQidx : Prop :=
  ∀ s : State, s.err = false → s.bpp = 2 ∨ s.bpp = 4 ∨ s.bpp = 8 →
    ∃ t : State, exec .near s = .next t ∧ t = { s with qidx := t.qidx } ∧
      t.qidx.toNat = nearest Config.reference s.toEngine (qinAt Config.reference s.toEngine) ∧
      regRead t.toEngine 0x09 =
        BitVec.ofNat 32 (nearest Config.reference s.toEngine (qinAt Config.reference s.toEngine))

/-! ### The dither engine (42_dither.md) -/

/-- R137: without a kernel DLINE writes, for every column, the nearest index of the UNCLAMPED pixel
into slot `y mod 8`, and nothing else: every other element of IDX reads as before and the rest of
the state is the same. -/
def Obligations.NoDitherLineQuantizesEveryPixel : Prop :=
  ∀ (y : Nat) (s : State), DlineReady s.toEngine y → s.kernelOn = false →
    ∃ m : Mem Byte, exec (.dline y) s = .next { s with idx := m } ∧
      (∀ x < s.width, m.read (idxKey (y % 8) x) = some (BitVec.ofNat 8
        (nearest Config.reference s.toEngine (gridAt Config.reference s.toEngine y x)))) ∧
      (∀ k, (∀ x < s.width, k ≠ idxKey (y % 8) x) → m.read k = s.idx.read k)

/-- R137: in no-dither mode SERP, KGEOM and KER are not read: with other contents of these the same
indices are written. -/
def Obligations.NoDitherIgnoresTheKernel : Prop :=
  ∀ (y : Nat) (s : State) (ctrl' kgeom' : Word) (ker' : Mem NUM),
    s.kernelOn = false → ctrl'.getLsbD 0 = false →
    ∃ t, exec (.dline y) s = .next t ∧
      exec (.dline y) { s with ctrl := ctrl', kgeom := kgeom', ker := ker' } =
        .next { t with ctrl := ctrl', kgeom := kgeom', ker := ker' }

/-- R148 (e): in no-dither mode DLINE is idempotent. -/
def Obligations.NoDitherLineIsIdempotent : Prop :=
  ∀ (y : Nat) (s t : State), s.kernelOn = false → exec (.dline y) s = .next t →
    exec (.dline y) t = .next t

/-- R138: with a kernel DLINE visits every column once, ascending, or descending when SERP is 1 and
the line index is odd; at each column it does what `ditherPixel` does. -/
def Obligations.DiffusionLineScansInOrder : Prop :=
  ∀ (y : Nat) (s : State), DlineReady s.toEngine y → s.kernelOn = true →
    ∀ rtl : Bool, (rtl = true ↔ s.serpentine = true ∧ y % 2 = 1) →
    exec (.dline y) s = .next
      { s with
        toEngine :=
          ((List.range s.width).map fun j => if rtl then s.width - 1 - j else j).foldl
            (ditherPixel Config.reference rtl y) s.toEngine }

/-- R139 to R146, one pixel for every `NUM`: the current value is clamped, its nearest index recorded at
the pixel's own column; every neighbour inside the image under a cell of nonzero weight receives
`error * weight` once, in every channel, the error taken from the clamped colour; every other
element of GRID and of IDX reads as before. -/
def Obligations.DitherPixelRecordsAndDiffuses : Prop :=
  ∀ (α : Type) (P : Params α) (e : Engine α) (rtl : Bool) (y x : Nat) (a : Colour α) (i : Nat),
    a = (fun c => clamp01 P.num (gridAt P e y x c)) → i = nearest P e a →
    (ditherPixel P rtl y e x).idx.read (idxKey (y % 8) x) = some (BitVec.ofNat 8 i) ∧
    (∀ k, k ≠ idxKey (y % 8) x → (ditherPixel P rtl y e x).idx.read k = e.idx.read k) ∧
    (∀ r < e.kernelRows, ∀ k < e.kernelCols, ∀ ny < e.height, ∀ nx < e.width,
      numEq P.num (kerAt P e r k) P.num.zero = false →
      (ny : Int) = y + r →
      (nx : Int) = x + (if rtl then (e.kernelOrigin : Int) - k else k - e.kernelOrigin) →
      ∀ c < e.channels,
        gridAt P (ditherPixel P rtl y e x) ny nx c =
          P.num.add (gridAt P e ny nx c)
            (P.num.mul (P.num.sub (a c) (palAt P e i c)) (kerAt P e r k))) ∧
    (∀ key,
      (∀ r < e.kernelRows, ∀ k < e.kernelCols, ∀ ny < e.height, ∀ nx < e.width,
        numEq P.num (kerAt P e r k) P.num.zero = false →
        (ny : Int) = y + r →
        (nx : Int) = x + (if rtl then (e.kernelOrigin : Int) - k else k - e.kernelOrigin) →
        ∀ c < e.channels, key ≠ gridKey ny nx c) →
      (ditherPixel P rtl y e x).grid.read key = e.grid.read key)

/-- R76, R135: with a kernel DLINE completes, changing only IDX and GRID: in IDX the elements of slot
`y mod 8` below WIDTH, each to an index below `2^BPP`; in GRID at most the channels in use of the
pixels inside the image that a cell of nonzero weight reaches from a column of the line. -/
def Obligations.DiffusionLineWritesOnlyWhatItReaches : Prop :=
  ∀ (y : Nat) (s : State), DlineReady s.toEngine y → s.kernelOn = true →
    ∃ (m : Mem Byte) (g : Mem NUM), exec (.dline y) s = .next { s with idx := m, grid := g } ∧
      (∀ x < s.width, ∃ i < 2 ^ s.bpp, m.read (idxKey (y % 8) x) = some (BitVec.ofNat 8 i)) ∧
      (∀ k, (∀ x < s.width, k ≠ idxKey (y % 8) x) → m.read k = s.idx.read k) ∧
      (∀ key,
        (∀ x < s.width, ∀ r < s.kernelRows, ∀ k < s.kernelCols, ∀ ny < s.height, ∀ nx < s.width,
          kerAt Config.reference s.toEngine r k ≠ 0 →
          neighbour s.toEngine (rightToLeft s.toEngine y) y x r k = ((ny : Int), (nx : Int)) →
          ∀ c < s.channels, key ≠ gridKey ny nx c) →
        g.read key = s.grid.read key)

/-- R149 (a) and R148 (d): with every weight in use zero and every channel value of the line in
`[0,1]`, the diffusion mode writes the indices of the no-dither mode and no element of GRID. -/
def Obligations.ZeroKernelEqualsNoDither : Prop :=
  ∀ (y : Nat) (s : State) (ctrl₀ : Word), DlineReady s.toEngine y → s.kernelOn = true →
    ctrl₀.getLsbD 0 = false →
    (∀ r < s.kernelRows, ∀ k < s.kernelCols, kerAt Config.reference s.toEngine r k = 0) →
    lineInUnit Config.reference s.toEngine y →
    ∃ t t₀ : State, exec (.dline y) s = .next t ∧
      exec (.dline y) { s with ctrl := ctrl₀ } = .next t₀ ∧
      (∀ k, t.idx.read k = t₀.idx.read k) ∧ t.grid = s.grid ∧ t₀.grid = s.grid

/-- R149 (c): a line of uniform colour exactly at a palette entry inside `[0,1]` gives, whatever the
kernel, the least index of an entry of that colour in every column, and no element of GRID
changes its value. -/
def Obligations.UniformLineAtAPaletteEntryDiffusesNothing : Prop :=
  ∀ (y j : Nat) (s : State), DlineReady s.toEngine y → s.kernelOn = true → j < 2 ^ s.bpp →
    (∀ c < s.channels, 0 ≤ palAt Config.reference s.toEngine j c ∧
      palAt Config.reference s.toEngine j c ≤ 1) →
    (∀ x < s.width, ∀ c < s.channels, gridAt Config.reference s.toEngine y x c =
      palAt Config.reference s.toEngine j c) →
    ∃ (t : State) (m : Nat), exec (.dline y) s = .next t ∧ m ≤ j ∧
      (∀ c < s.channels, palAt Config.reference s.toEngine m c =
        palAt Config.reference s.toEngine j c) ∧
      (∀ i < m, ∃ c < s.channels, palAt Config.reference s.toEngine i c ≠
        palAt Config.reference s.toEngine j c) ∧
      (∀ x < s.width, (idxAt Config.reference t.toEngine (y % 8) x).toNat = m) ∧
      (∀ y' x' c', x' < 65536 → c' < 4 →
        gridAt Config.reference t.toEngine y' x' c' = gridAt Config.reference s.toEngine y' x' c')

/-- R142, R138: serpentine mirrors exactly. A right-to-left line of an image gives the mirror image of
what a left-to-right line with the same kernel gives on the mirrored image, in the indices and in
every element of the grid. -/
def Obligations.RightToLeftIsTheMirrorOfLeftToRight : Prop :=
  ∀ (y : Nat) (s t : State), DlineReady s.toEngine y → s.kernelOn = true → s.serpentine = true →
    y % 2 = 1 →
    t.kernelOn = true → t.serpentine = false →
    t.dim = s.dim → t.fmt = s.fmt → t.kgeom = s.kgeom → t.err = s.err →
    (∀ i < 2 ^ s.bpp, ∀ c < s.channels, palAt Config.reference t.toEngine i c =
      palAt Config.reference s.toEngine i c) →
    (∀ r < s.kernelRows, ∀ k < s.kernelCols, kerAt Config.reference t.toEngine r k =
      kerAt Config.reference s.toEngine r k) →
    (∀ y' < s.height, ∀ x < s.width, ∀ c < s.channels,
      gridAt Config.reference t.toEngine y' x c =
        gridAt Config.reference s.toEngine y' (s.width - 1 - x) c) →
    ∃ s' t' : State, exec (.dline y) s = .next s' ∧ exec (.dline y) t = .next t' ∧
      (∀ x < s.width, idxAt Config.reference t'.toEngine (y % 8) x =
        idxAt Config.reference s'.toEngine (y % 8) (s.width - 1 - x)) ∧
      (∀ y' < s.height, ∀ x < s.width, ∀ c < s.channels,
        gridAt Config.reference t'.toEngine y' x c =
          gridAt Config.reference s'.toEngine y' (s.width - 1 - x) c)

/-- R149 (b): some two-line image and kernel give other indices with serpentine than without. -/
def Obligations.SerpentineIsDistinguishable : Prop :=
  ∃ s t t' : State, DlineReady s.toEngine 1 ∧ s.height = 2 ∧ s.ctrl = 0x00000001 ∧
    exec (.dline 1) s = .next t ∧ exec (.dline 1) { s with ctrl := 0x00000003 } = .next t' ∧
    ∃ x < s.width, idxAt Config.reference t.toEngine 1 x ≠ idxAt Config.reference t'.toEngine 1 x

/-- R213 with R126 (e), R135, R155: when every element a command uses has been written, its result does
not depend on the unspecified reset contents. -/
def Obligations.LoadedCommandsIgnoreResetContents : Prop :=
  ∀ (α : Type) (P P' : Params α) (e : Engine α), P'.num = P.num → P'.outCap = P.outCap →
    (∀ y, gridLoaded e → palLoaded e → (e.kernelOn = true → kerLoaded e) →
      dlineCommand P' y e = dlineCommand P y e) ∧
    (qinLoaded e → palLoaded e → nearCommand P' e = nearCommand P e) ∧
    (idxLoaded e → encrowCommand P' e = encrowCommand P e)

/-! ### The bitplane encoder (43_bitplane.md) -/

/-- R155: past its checks ENCROW appends `16 * (WIDTH div 8) * (BPP div 2)` bytes to OUT and changes
nothing else; OUTLEN reads the new number of bytes. -/
def Obligations.EncrowAppendsTheTileRow : Prop :=
  ∀ s : State, s.err = false → s.bpp = 2 ∨ s.bpp = 4 ∨ s.bpp = 8 → 0 < s.width → 0 < s.height →
    s.out.length + 16 * (s.width / 8) * (s.bpp / 2) ≤ 4294967295 →
    ∃ bytes : List Byte, exec .encrow s = .next { s with out := s.out ++ bytes } ∧
      bytes = rowBytes Config.reference s.toEngine ∧
      bytes.length = 16 * (s.width / 8) * (s.bpp / 2) ∧
      regRead { s.toEngine with out := s.out ++ bytes } 0x0A =
        BitVec.ofNat 32 (s.out.length + 16 * (s.width / 8) * (s.bpp / 2))

/-- R156 for every `OUTCAP`: the capacity check is made on the whole amount before the first byte. -/
def Obligations.EncrowRespectsEveryCapacity : Prop :=
  ∀ (α : Type) (P : Params α) (e : Engine α), e.err = false →
    e.bpp = 2 ∨ e.bpp = 4 ∨ e.bpp = 8 → 0 < e.width → 0 < e.height →
    (P.outCap.val < e.out.length + 16 * (e.width / 8) * (e.bpp / 2) →
      encrowCommand P e = { e with err := true, ecode := 6, ecmd := 0x00000003 }) ∧
    (e.out.length + 16 * (e.width / 8) * (e.bpp / 2) ≤ P.outCap.val →
      (encrowCommand P e).out = e.out ++ rowBytes P e ∧
      (encrowCommand P e).out.length ≤ P.outCap.val)

/-- R159 with the order of R157: the word of tile `t`, plane pair `2q`, row `r` stands at word
`(t * (BPP div 2) + q) * 8 + r` of the appended words; bit `7 - x` of its first byte is bit `2q`
of the pixel at column `x`, bit `7 - x` of its second byte is bit `2q + 1`. -/
def Obligations.WordsHaveThePlanarLayout : Prop :=
  ∀ (α : Type) (P : Params α) (e : Engine α) (t q r x : Nat),
    t < e.width / 8 → q < e.bpp / 2 → r < 8 → x < 8 →
    ((rowBytes P e).getD (2 * ((t * (e.bpp / 2) + q) * 8 + r)) 0).getLsbD (7 - x) =
      (idxAt P e r (8 * t + x)).getLsbD (2 * q) ∧
    ((rowBytes P e).getD (2 * ((t * (e.bpp / 2) + q) * 8 + r) + 1) 0).getLsbD (7 - x) =
      (idxAt P e r (8 * t + x)).getLsbD (2 * q + 1)

/-- R163: reading the layout back gives each bit of an index, from the low byte of its word for an even
plane and the high byte for an odd one, and so every index modulo `2^BPP`, whatever stood in OUT
before and is appended later. -/
def Obligations.EncodedStreamReadsBack : Prop :=
  ∀ (α : Type) (P : Params α) (e : Engine α) (before later : List Byte) (t r x : Nat),
    e.bpp = 2 ∨ e.bpp = 4 ∨ e.bpp = 8 → t < e.width / 8 → r < 8 → x < 8 →
    (∀ p < e.bpp, ∀ out j, out = before ++ rowBytes P e ++ later →
      j = (t * (e.bpp / 2) + p / 2) * 8 + r →
      bitOf (idxAt P e r (8 * t + x)) p =
        (out.getD (before.length + 2 * j + p % 2) 0 >>> (7 - x)) &&& 1) ∧
    (readBackIndex (before ++ rowBytes P e ++ later) before.length e.bpp t r x).toNat =
      (idxAt P e r (8 * t + x)).toNat % 2 ^ e.bpp

/-- R164 (d): two tiles with the same 64 indices give the same bytes. -/
def Obligations.IdenticalTilesEncodeIdentically : Prop :=
  ∀ (α : Type) (P : Params α) (e : Engine α) (t t' : Nat), t < e.width / 8 → t' < e.width / 8 →
    (∀ r < 8, ∀ x < 8, idxAt P e r (8 * t + x) = idxAt P e r (8 * t' + x)) →
    ∀ j < 16 * (e.bpp / 2),
      (rowBytes P e).getD (t * (16 * (e.bpp / 2)) + j) 0 =
        (rowBytes P e).getD (t' * (16 * (e.bpp / 2)) + j) 0

/-- R158, R161: the bytes depend only on the low BPP bits of the indices of the whole tiles. -/
def Obligations.EncrowUsesOnlyTheLowBitsOfWholeTiles : Prop :=
  ∀ (α : Type) (P P' : Params α) (e e' : Engine α), e'.bpp = e.bpp → e'.width = e.width →
    (∀ s < 8, ∀ x < 8 * (e.width / 8),
      (idxAt P' e' s x).toNat % 2 ^ e.bpp = (idxAt P e s x).toNat % 2 ^ e.bpp) →
    rowBytes P' e' = rowBytes P e

/-! ### Registers and memory ports (10_state.md, 20_memory.md) -/

/-- R25 to R28: the fields of the configuration registers stand at the bits the tables give. -/
def Obligations.ConfigurationFieldsStandAtTheirBits : Prop :=
  ∀ (α : Type) (e : Engine α),
    (e.kernelOn = true ↔ e.ctrl.toNat % 2 = 1) ∧ (e.serpentine = true ↔ e.ctrl.toNat / 2 % 2 = 1) ∧
    e.width = e.dim.toNat % 65536 ∧ e.height = e.dim.toNat / 65536 ∧
    e.bpp = e.fmt.toNat % 16 ∧ e.channels = e.fmt.toNat / 16 % 4 + 1 ∧
    e.kernelRows = e.kgeom.toNat % 8 + 1 ∧ e.kernelCols = e.kgeom.toNat / 16 % 8 + 1 ∧
    e.kernelOrigin = e.kgeom.toNat / 256 % 8

/-- R22 with R24 to R34: what a RegRead of each number returns, and that it changes nothing else. -/
def Obligations.RegistersReadAsTheMapSays : Prop :=
  ∀ (s : State) (n : Word) (rest : List (Event NUM)), s.events = .txn (.regRead n) :: rest →
    ∃ v : Word, step s = .next { s with events := rest, reply := .word v } ∧
      (n = 0x00 → v = 0x44424501) ∧
      (n = 0x01 → v = s.ctrl &&& 0x00000003) ∧
      (n = 0x02 → v = s.dim) ∧
      (n = 0x03 → v = s.fmt &&& 0x0000003F) ∧
      (n = 0x04 → v = s.kgeom &&& 0x00000777) ∧
      (n = 0x05 → v.toNat = (if s.err then 1 else 0) + (if s.width % 8 = 0 then 0 else 2) +
        (if s.height % 8 = 0 then 0 else 4)) ∧
      (n = 0x06 → v.toNat = s.ecode.toNat) ∧
      (n = 0x07 → v = s.ecmd) ∧
      (n = 0x08 → v = 0) ∧
      (n = 0x09 → v.toNat = s.qidx.toNat) ∧
      (n = 0x0A → v = BitVec.ofNat 32 s.out.length) ∧
      (0x0A < n → v = 0)

/-- R23: a RegWrite to CTRL, DIM, FMT or KGEOM takes exactly the assigned bits, which are then read
back with the reserved bits 0; to any other number but CMD it changes nothing; halted or not. A
RegRead changes nothing of the hardware, and of a reserved number returns 0. -/
def Obligations.RegisterWritesTakeAssignedBits : Prop :=
  (∀ (s : State) (n w : Word) (rest : List (Event NUM)),
    s.events = .txn (.regWrite n w) :: rest → n ≠ 0x08 →
    ∃ e : Engine NUM, step s = .next { s with toEngine := e, events := rest, reply := .none } ∧
      (n = 0x01 → e = { s.toEngine with ctrl := w &&& 0x00000003 } ∧
        regRead e n = w &&& 0x00000003) ∧
      (n = 0x02 → e = { s.toEngine with dim := w } ∧ regRead e n = w) ∧
      (n = 0x03 → e = { s.toEngine with fmt := w &&& 0x0000003F } ∧
        regRead e n = w &&& 0x0000003F) ∧
      (n = 0x04 → e = { s.toEngine with kgeom := w &&& 0x00000777 } ∧
        regRead e n = w &&& 0x00000777) ∧
      (n ≠ 0x01 → n ≠ 0x02 → n ≠ 0x03 → n ≠ 0x04 → e = s.toEngine)) ∧
  (∀ (s : State) (n : Word) (rest : List (Event NUM)), s.events = .txn (.regRead n) :: rest →
    ∃ v : Word, step s = .next { s with events := rest, reply := .word v } ∧ (0x0A < n → v = 0))

/-- R64: a MemWrite replaces the one element it names, in every space but OUT, which it leaves alone;
every other element and every register reads as before. -/
def Obligations.MemWriteReplacesOneElement : Prop :=
  (∀ (s : State) (st : Store NUM) (rest : List (Event NUM)),
    s.events = .txn (.memWrite st) :: rest →
    step s = .next
      { s with toEngine := memWrite s.toEngine st, events := rest, reply := .none }) ∧
  (∀ (α : Type) (P : Params α) (e : Engine α),
    (∀ b v a, memRead P (memWrite e (.num b v)) (.num a) =
      if a = b then .num v else memRead P e (.num a)) ∧
    (∀ b v a, memRead P (memWrite e (.num b v)) (.byte a) = memRead P e (.byte a)) ∧
    (∀ s x v a, memRead P (memWrite e (.byte (.idx s x) v)) a =
      if a = .byte (.idx s x) then .byte v else memRead P e a) ∧
    (∀ b v, memWrite e (.byte (.out b) v) = e) ∧
    (∀ st n, regRead (memWrite e st) n = regRead e n) ∧
    (∀ st, { memWrite e st with
      grid := e.grid, pal := e.pal, ker := e.ker, qin := e.qin, idx := e.idx } = e))

/-- R63: a MemRead returns the current value of the element, OUT reads 0 at and beyond OUTLEN, and no
state of the hardware changes. -/
def Obligations.MemReadReturnsTheElement : Prop :=
  (∀ (s : State) (a : Addr) (rest : List (Event NUM)), s.events = .txn (.memRead a) :: rest →
    step s = .next
      { s with events := rest, reply := memRead Config.reference s.toEngine a }) ∧
  (∀ (α : Type) (P : Params α) (e : Engine α),
    (∀ (y x : Fin 65536) (c : Fin 4) (v : α), e.grid.read (gridKey y x c) = some v →
      memRead P e (.num (.grid y x c)) = .num v) ∧
    (∀ (i : Fin 256) (c : Fin 4) (v : α), e.pal.read (palKey i c) = some v →
      memRead P e (.num (.pal i c)) = .num v) ∧
    (∀ (r k : Fin 8) (v : α), e.ker.read (kerKey r k) = some v →
      memRead P e (.num (.ker r k)) = .num v) ∧
    (∀ (c : Fin 4) (v : α), e.qin.read c = some v → memRead P e (.num (.qin c)) = .num v) ∧
    (∀ (s : Fin 8) (x : Fin 65536) (v : Byte), e.idx.read (idxKey s x) = some v →
      memRead P e (.byte (.idx s x)) = .byte v) ∧
    (∀ b : Fin 4294967296,
      (∀ h : b.val < e.out.length, memRead P e (.byte (.out b)) = .byte e.out[b.val]) ∧
      (e.out.length ≤ b.val → memRead P e (.byte (.out b)) = .byte 0)))

/-! ### Reset (10_state.md R43, 70_reset_and_hazards.md) -/

/-- R43, second column: after a hardware reset ID reads 0x44424501 and every other register 0, OUT is
empty and no error is latched. The contents of the memories are free values (log entry 3), of
which nothing is said. -/
def Obligations.ResetRegistersReadZeroButId : Prop :=
  (∀ n : Word, regRead State.reset.toEngine n = if n = 0x00 then 0x44424501 else 0) ∧
  State.reset.err = false ∧ State.reset.out = [] ∧
  (∀ b : Fin 4294967296,
    memRead Config.reference State.reset.toEngine (.byte (.out b)) = .byte 0)

/-- R211: a hardware reset and SRESET both clear the latch, QIDX and OUT; SRESET keeps the
configuration registers and the memories, a hardware reset zeroes the registers and gives the
memories new unspecified contents, the free values of the next reset (log entries 3 and 5). -/
def Obligations.TheTwoResetsCompared : Prop :=
  (∀ (s : State) (rest : List (Event NUM)), s.events = .hardReset :: rest →
    ∃ t : State, step s = .next t ∧ t.events = rest ∧
      (∀ n : Word, regRead t.toEngine n = if n = 0x00 then 0x44424501 else 0) ∧ t.out = [] ∧
      t.err = false ∧
      (∀ y x c, gridAt Config.reference t.toEngine y x c =
        Config.resetNum (s.resets + 1) .grid (gridKey y x c)) ∧
      (∀ i c, palAt Config.reference t.toEngine i c =
        Config.resetNum (s.resets + 1) .pal (palKey i c)) ∧
      (∀ r k, kerAt Config.reference t.toEngine r k =
        Config.resetNum (s.resets + 1) .ker (kerKey r k)) ∧
      (∀ c, qinAt Config.reference t.toEngine c = Config.resetNum (s.resets + 1) .qin c) ∧
      (∀ sl x, idxAt Config.reference t.toEngine sl x =
        Config.resetIdx (s.resets + 1) (idxKey sl x))) ∧
  (∀ s t : State, exec .sreset s = .next t →
    t.ctrl = s.ctrl ∧ t.dim = s.dim ∧ t.fmt = s.fmt ∧ t.kgeom = s.kgeom ∧ t.qin = s.qin ∧
    t.grid = s.grid ∧ t.pal = s.pal ∧ t.ker = s.ker ∧ t.idx = s.idx ∧ t.resets = s.resets ∧
    t.err = false ∧ t.ecode = 0 ∧ t.ecmd = 0 ∧ t.qidx = 0 ∧ t.out = [])

/-- R43, last paragraph: in the state after reset every DLINE, NEAR and ENCROW raises a configuration
error (E_BPP, code 2) and computes nothing. -/
def Obligations.UnconfiguredEngineFailsFast : Prop :=
  ∀ i : Instr, (∃ y, i = .dline y) ∨ i = .near ∨ i = .encrow →
    exec i State.reset = .next { State.reset with err := true, ecode := 2, ecmd := encode i }

/-! ### The whole machine -/

/-- R76, R25 to R28, R36, R37: which command writes what. No command writes a configuration register,
PAL, KER or QIN; only DLINE writes IDX, and GRID only with `KEN = 1`; only NEAR and SRESET write
QIDX; only ENCROW and SRESET write OUT. -/
def Obligations.CommandsWriteOnlyWhatTheSummarySays : Prop :=
  ∀ (i : Instr) (s t : State), exec i s = .next t →
    t.ctrl = s.ctrl ∧ t.dim = s.dim ∧ t.fmt = s.fmt ∧ t.kgeom = s.kgeom ∧ t.pal = s.pal ∧
    t.ker = s.ker ∧ t.qin = s.qin ∧ t.resets = s.resets ∧ t.events = s.events ∧
    t.reply = s.reply ∧
    ((∀ y, i ≠ .dline y) → t.idx = s.idx) ∧
    ((∀ y, i ≠ .dline y) ∨ s.kernelOn = false → t.grid = s.grid) ∧
    (i ≠ .near → i ≠ .sreset → t.qidx = s.qidx) ∧
    (i ≠ .encrow → i ≠ .sreset → t.out = s.out)

/-- R34, R40, R218: in one step OUT grows at its end or keeps its bytes, unless the step was SRESET or a
hardware reset, which empty it. -/
def Obligations.OutOnlyGrowsBetweenResets : Prop :=
  ∀ s t : State, step s = .next t →
    s.out <+: t.out ∨
    (t.out = [] ∧ ((∃ rest, s.events = .txn (.regWrite 0x08 0x00000004) :: rest) ∨
      ∃ rest, s.events = .hardReset :: rest))

/-- R170, R176: every step and every command, in every state, has a next state. -/
def Obligations.EveryCommandAndStepCompletes : Prop :=
  (∀ (i : Instr) (s : State), ∃ t, exec i s = .next t) ∧ (∀ s : State, ∃ t, step s = .next t)

/-- R205: with no transaction pending the engine is idle and loses no state. -/
def Obligations.IdleEngineKeepsItsState : Prop :=
  ∀ s : State, s.events = [] → step s = .next s

/-- R222, R21, R62: running the machine for as many steps as the host has transactions pending ends
with none pending, in the hardware state that folding the transaction functions over the list
gives. -/
def Obligations.RunIsTheFoldOfTheTransactions : Prop :=
  ∀ s : State, ∃ t : State, Host.Core.run Sys2Proof.core s.events.length s = .next t ∧
    t.events = [] ∧ t.toEngine = engineRun Config.reference s.events s.toEngine

/-- The invariant holds right after reset. -/
def Obligations.InvariantHoldsAtReset : Prop := State.reset.Inv

/-- The invariant (canonical memories; reserved bits 0, R23; ECODE and ECMD 0 with no error, R30, R31;
the latched code and word fit, R186; OUTLEN within OUTCAP, R119; whole words in OUT, R66) is kept
by every step, whatever the host does. -/
def Obligations.EveryStepKeepsTheInvariant : Prop :=
  ∀ s t : State, s.Inv → step s = .next t → t.Inv

/-! ### The numbers of the spaces (20_memory.md R60, R68) -/

/-- R60, R68: GRID, PAL, KER, IDX, QIN and OUT have the ids 0 to 5 and no other number names a space;
an id and coordinates name an address exactly when it is that of the id's space with these
coordinates, so an address has one id and one tuple. The tuple as a list of numbers is the model's
form (log entry 14). -/
def Obligations.SpaceIdsAndCoordinatesNameAddresses : Prop :=
  (spaceId .grid = 0 ∧ spaceId .pal = 1 ∧ spaceId .ker = 2 ∧ spaceId .idx = 3 ∧
    spaceId .qin = 4 ∧ spaceId .out = 5) ∧
  (∀ (n : Nat) (sp : Space), spaceOfId n = some sp ↔ spaceId sp = n) ∧
  (∀ n, spaceOfId n = none ↔ 5 < n) ∧
  (∀ (n : Nat) (cs : List Nat) (a : Addr), portAddr n cs = some a ↔
    spaceId (addrSpace a) = n ∧ addrCoords a = cs) ∧
  (∀ (y x c : Nat), (portAddr 0 [y, x, c]).isSome = true ↔ y < 65536 ∧ x < 65536 ∧ c < 4) ∧
  (∀ (i c : Nat), (portAddr 1 [i, c]).isSome = true ↔ i < 256 ∧ c < 4) ∧
  (∀ (r k : Nat), (portAddr 2 [r, k]).isSome = true ↔ r < 8 ∧ k < 8) ∧
  (∀ (s x : Nat), (portAddr 3 [s, x]).isSome = true ↔ s < 8 ∧ x < 65536) ∧
  (∀ (c : Nat), (portAddr 4 [c]).isSome = true ↔ c < 4) ∧
  (∀ (b : Nat), (portAddr 5 [b]).isSome = true ↔ b < 4294967296)
end

