-- ==== Sys2Proof/Laws/State.lean ====
section
/-! SUPPORT. One lemma per field per update of the hardware state, true by rfl, so that no later proof
unfolds a record update. -/

namespace Sys2Proof.Machine

variable {α : Type}

/-! ### raising an error -/

@[simp] theorem raiseError_ctrl (c : ErrCode) (w : Word) (e : Engine α) :
    (raiseError c w e).ctrl = e.ctrl := rfl
@[simp] theorem raiseError_dim (c : ErrCode) (w : Word) (e : Engine α) :
    (raiseError c w e).dim = e.dim := rfl
@[simp] theorem raiseError_fmt (c : ErrCode) (w : Word) (e : Engine α) :
    (raiseError c w e).fmt = e.fmt := rfl
@[simp] theorem raiseError_kgeom (c : ErrCode) (w : Word) (e : Engine α) :
    (raiseError c w e).kgeom = e.kgeom := rfl
@[simp] theorem raiseError_err (c : ErrCode) (w : Word) (e : Engine α) :
    (raiseError c w e).err = true := rfl
@[simp] theorem raiseError_ecode (c : ErrCode) (w : Word) (e : Engine α) :
    (raiseError c w e).ecode = c.code := rfl
@[simp] theorem raiseError_ecmd (c : ErrCode) (w : Word) (e : Engine α) :
    (raiseError c w e).ecmd = w := rfl
@[simp] theorem raiseError_qidx (c : ErrCode) (w : Word) (e : Engine α) :
    (raiseError c w e).qidx = e.qidx := rfl
@[simp] theorem raiseError_qin (c : ErrCode) (w : Word) (e : Engine α) :
    (raiseError c w e).qin = e.qin := rfl
@[simp] theorem raiseError_grid (c : ErrCode) (w : Word) (e : Engine α) :
    (raiseError c w e).grid = e.grid := rfl
@[simp] theorem raiseError_pal (c : ErrCode) (w : Word) (e : Engine α) :
    (raiseError c w e).pal = e.pal := rfl
@[simp] theorem raiseError_ker (c : ErrCode) (w : Word) (e : Engine α) :
    (raiseError c w e).ker = e.ker := rfl
@[simp] theorem raiseError_idx (c : ErrCode) (w : Word) (e : Engine α) :
    (raiseError c w e).idx = e.idx := rfl
@[simp] theorem raiseError_out (c : ErrCode) (w : Word) (e : Engine α) :
    (raiseError c w e).out = e.out := rfl
@[simp] theorem raiseError_resets (c : ErrCode) (w : Word) (e : Engine α) :
    (raiseError c w e).resets = e.resets := rfl

/-! ### the soft reset -/

@[simp] theorem softReset_ctrl (e : Engine α) :
    (softReset e).ctrl = e.ctrl := rfl
@[simp] theorem softReset_dim (e : Engine α) :
    (softReset e).dim = e.dim := rfl
@[simp] theorem softReset_fmt (e : Engine α) :
    (softReset e).fmt = e.fmt := rfl
@[simp] theorem softReset_kgeom (e : Engine α) :
    (softReset e).kgeom = e.kgeom := rfl
@[simp] theorem softReset_err (e : Engine α) :
    (softReset e).err = false := rfl
@[simp] theorem softReset_ecode (e : Engine α) :
    (softReset e).ecode = 0 := rfl
@[simp] theorem softReset_ecmd (e : Engine α) :
    (softReset e).ecmd = 0 := rfl
@[simp] theorem softReset_qidx (e : Engine α) :
    (softReset e).qidx = 0 := rfl
@[simp] theorem softReset_qin (e : Engine α) :
    (softReset e).qin = e.qin := rfl
@[simp] theorem softReset_grid (e : Engine α) :
    (softReset e).grid = e.grid := rfl
@[simp] theorem softReset_pal (e : Engine α) :
    (softReset e).pal = e.pal := rfl
@[simp] theorem softReset_ker (e : Engine α) :
    (softReset e).ker = e.ker := rfl
@[simp] theorem softReset_idx (e : Engine α) :
    (softReset e).idx = e.idx := rfl
@[simp] theorem softReset_out (e : Engine α) :
    (softReset e).out = [] := rfl
@[simp] theorem softReset_resets (e : Engine α) :
    (softReset e).resets = e.resets := rfl

/-! ### the hardware reset -/

@[simp] theorem hardReset_ctrl (e : Engine α) :
    (hardReset e).ctrl = 0 := rfl
@[simp] theorem hardReset_dim (e : Engine α) :
    (hardReset e).dim = 0 := rfl
@[simp] theorem hardReset_fmt (e : Engine α) :
    (hardReset e).fmt = 0 := rfl
@[simp] theorem hardReset_kgeom (e : Engine α) :
    (hardReset e).kgeom = 0 := rfl
@[simp] theorem hardReset_err (e : Engine α) :
    (hardReset e).err = false := rfl
@[simp] theorem hardReset_ecode (e : Engine α) :
    (hardReset e).ecode = 0 := rfl
@[simp] theorem hardReset_ecmd (e : Engine α) :
    (hardReset e).ecmd = 0 := rfl
@[simp] theorem hardReset_qidx (e : Engine α) :
    (hardReset e).qidx = 0 := rfl
@[simp] theorem hardReset_qin (e : Engine α) :
    (hardReset e).qin = [] := rfl
@[simp] theorem hardReset_grid (e : Engine α) :
    (hardReset e).grid = [] := rfl
@[simp] theorem hardReset_pal (e : Engine α) :
    (hardReset e).pal = [] := rfl
@[simp] theorem hardReset_ker (e : Engine α) :
    (hardReset e).ker = [] := rfl
@[simp] theorem hardReset_idx (e : Engine α) :
    (hardReset e).idx = [] := rfl
@[simp] theorem hardReset_out (e : Engine α) :
    (hardReset e).out = [] := rfl
@[simp] theorem hardReset_resets (e : Engine α) :
    (hardReset e).resets = e.resets + 1 := rfl

/-! ### writing an element of GRID -/

@[simp] theorem setGrid_ctrl (e : Engine α) (y x c : Nat) (v : α) :
    (setGrid e y x c v).ctrl = e.ctrl := rfl
@[simp] theorem setGrid_dim (e : Engine α) (y x c : Nat) (v : α) :
    (setGrid e y x c v).dim = e.dim := rfl
@[simp] theorem setGrid_fmt (e : Engine α) (y x c : Nat) (v : α) :
    (setGrid e y x c v).fmt = e.fmt := rfl
@[simp] theorem setGrid_kgeom (e : Engine α) (y x c : Nat) (v : α) :
    (setGrid e y x c v).kgeom = e.kgeom := rfl
@[simp] theorem setGrid_err (e : Engine α) (y x c : Nat) (v : α) :
    (setGrid e y x c v).err = e.err := rfl
@[simp] theorem setGrid_ecode (e : Engine α) (y x c : Nat) (v : α) :
    (setGrid e y x c v).ecode = e.ecode := rfl
@[simp] theorem setGrid_ecmd (e : Engine α) (y x c : Nat) (v : α) :
    (setGrid e y x c v).ecmd = e.ecmd := rfl
@[simp] theorem setGrid_qidx (e : Engine α) (y x c : Nat) (v : α) :
    (setGrid e y x c v).qidx = e.qidx := rfl
@[simp] theorem setGrid_qin (e : Engine α) (y x c : Nat) (v : α) :
    (setGrid e y x c v).qin = e.qin := rfl
@[simp] theorem setGrid_grid (e : Engine α) (y x c : Nat) (v : α) :
    (setGrid e y x c v).grid = e.grid.write (gridKey y x c) v := rfl
@[simp] theorem setGrid_pal (e : Engine α) (y x c : Nat) (v : α) :
    (setGrid e y x c v).pal = e.pal := rfl
@[simp] theorem setGrid_ker (e : Engine α) (y x c : Nat) (v : α) :
    (setGrid e y x c v).ker = e.ker := rfl
@[simp] theorem setGrid_idx (e : Engine α) (y x c : Nat) (v : α) :
    (setGrid e y x c v).idx = e.idx := rfl
@[simp] theorem setGrid_out (e : Engine α) (y x c : Nat) (v : α) :
    (setGrid e y x c v).out = e.out := rfl
@[simp] theorem setGrid_resets (e : Engine α) (y x c : Nat) (v : α) :
    (setGrid e y x c v).resets = e.resets := rfl

/-! ### writing an element of IDX -/

@[simp] theorem setIdx_ctrl (e : Engine α) (s x : Nat) (v : Byte) :
    (setIdx e s x v).ctrl = e.ctrl := rfl
@[simp] theorem setIdx_dim (e : Engine α) (s x : Nat) (v : Byte) :
    (setIdx e s x v).dim = e.dim := rfl
@[simp] theorem setIdx_fmt (e : Engine α) (s x : Nat) (v : Byte) :
    (setIdx e s x v).fmt = e.fmt := rfl
@[simp] theorem setIdx_kgeom (e : Engine α) (s x : Nat) (v : Byte) :
    (setIdx e s x v).kgeom = e.kgeom := rfl
@[simp] theorem setIdx_err (e : Engine α) (s x : Nat) (v : Byte) :
    (setIdx e s x v).err = e.err := rfl
@[simp] theorem setIdx_ecode (e : Engine α) (s x : Nat) (v : Byte) :
    (setIdx e s x v).ecode = e.ecode := rfl
@[simp] theorem setIdx_ecmd (e : Engine α) (s x : Nat) (v : Byte) :
    (setIdx e s x v).ecmd = e.ecmd := rfl
@[simp] theorem setIdx_qidx (e : Engine α) (s x : Nat) (v : Byte) :
    (setIdx e s x v).qidx = e.qidx := rfl
@[simp] theorem setIdx_qin (e : Engine α) (s x : Nat) (v : Byte) :
    (setIdx e s x v).qin = e.qin := rfl
@[simp] theorem setIdx_grid (e : Engine α) (s x : Nat) (v : Byte) :
    (setIdx e s x v).grid = e.grid := rfl
@[simp] theorem setIdx_pal (e : Engine α) (s x : Nat) (v : Byte) :
    (setIdx e s x v).pal = e.pal := rfl
@[simp] theorem setIdx_ker (e : Engine α) (s x : Nat) (v : Byte) :
    (setIdx e s x v).ker = e.ker := rfl
@[simp] theorem setIdx_idx (e : Engine α) (s x : Nat) (v : Byte) :
    (setIdx e s x v).idx = e.idx.write (idxKey s x) v := rfl
@[simp] theorem setIdx_out (e : Engine α) (s x : Nat) (v : Byte) :
    (setIdx e s x v).out = e.out := rfl
@[simp] theorem setIdx_resets (e : Engine α) (s x : Nat) (v : Byte) :
    (setIdx e s x v).resets = e.resets := rfl

/-! ### appending to OUT -/

@[simp] theorem appendOut_ctrl (e : Engine α) (bs : List Byte) :
    (appendOut e bs).ctrl = e.ctrl := rfl
@[simp] theorem appendOut_dim (e : Engine α) (bs : List Byte) :
    (appendOut e bs).dim = e.dim := rfl
@[simp] theorem appendOut_fmt (e : Engine α) (bs : List Byte) :
    (appendOut e bs).fmt = e.fmt := rfl
@[simp] theorem appendOut_kgeom (e : Engine α) (bs : List Byte) :
    (appendOut e bs).kgeom = e.kgeom := rfl
@[simp] theorem appendOut_err (e : Engine α) (bs : List Byte) :
    (appendOut e bs).err = e.err := rfl
@[simp] theorem appendOut_ecode (e : Engine α) (bs : List Byte) :
    (appendOut e bs).ecode = e.ecode := rfl
@[simp] theorem appendOut_ecmd (e : Engine α) (bs : List Byte) :
    (appendOut e bs).ecmd = e.ecmd := rfl
@[simp] theorem appendOut_qidx (e : Engine α) (bs : List Byte) :
    (appendOut e bs).qidx = e.qidx := rfl
@[simp] theorem appendOut_qin (e : Engine α) (bs : List Byte) :
    (appendOut e bs).qin = e.qin := rfl
@[simp] theorem appendOut_grid (e : Engine α) (bs : List Byte) :
    (appendOut e bs).grid = e.grid := rfl
@[simp] theorem appendOut_pal (e : Engine α) (bs : List Byte) :
    (appendOut e bs).pal = e.pal := rfl
@[simp] theorem appendOut_ker (e : Engine α) (bs : List Byte) :
    (appendOut e bs).ker = e.ker := rfl
@[simp] theorem appendOut_idx (e : Engine α) (bs : List Byte) :
    (appendOut e bs).idx = e.idx := rfl
@[simp] theorem appendOut_out (e : Engine α) (bs : List Byte) :
    (appendOut e bs).out = e.out ++ bs := rfl
@[simp] theorem appendOut_resets (e : Engine α) (bs : List Byte) :
    (appendOut e bs).resets = e.resets := rfl

/-! ### NEAR past its checks -/

@[simp] theorem nearRun_ctrl (P : Params α) (e : Engine α) :
    (nearRun P e).ctrl = e.ctrl := rfl
@[simp] theorem nearRun_dim (P : Params α) (e : Engine α) :
    (nearRun P e).dim = e.dim := rfl
@[simp] theorem nearRun_fmt (P : Params α) (e : Engine α) :
    (nearRun P e).fmt = e.fmt := rfl
@[simp] theorem nearRun_kgeom (P : Params α) (e : Engine α) :
    (nearRun P e).kgeom = e.kgeom := rfl
@[simp] theorem nearRun_err (P : Params α) (e : Engine α) :
    (nearRun P e).err = e.err := rfl
@[simp] theorem nearRun_ecode (P : Params α) (e : Engine α) :
    (nearRun P e).ecode = e.ecode := rfl
@[simp] theorem nearRun_ecmd (P : Params α) (e : Engine α) :
    (nearRun P e).ecmd = e.ecmd := rfl
@[simp] theorem nearRun_qidx (P : Params α) (e : Engine α) :
    (nearRun P e).qidx = BitVec.ofNat 8 (nearest P e (qinColour P e)) := rfl
@[simp] theorem nearRun_qin (P : Params α) (e : Engine α) :
    (nearRun P e).qin = e.qin := rfl
@[simp] theorem nearRun_grid (P : Params α) (e : Engine α) :
    (nearRun P e).grid = e.grid := rfl
@[simp] theorem nearRun_pal (P : Params α) (e : Engine α) :
    (nearRun P e).pal = e.pal := rfl
@[simp] theorem nearRun_ker (P : Params α) (e : Engine α) :
    (nearRun P e).ker = e.ker := rfl
@[simp] theorem nearRun_idx (P : Params α) (e : Engine α) :
    (nearRun P e).idx = e.idx := rfl
@[simp] theorem nearRun_out (P : Params α) (e : Engine α) :
    (nearRun P e).out = e.out := rfl
@[simp] theorem nearRun_resets (P : Params α) (e : Engine α) :
    (nearRun P e).resets = e.resets := rfl

/-! ### register fields under memory writes -/

@[simp] theorem setGrid_kernelOn (e : Engine α) (y x c : Nat) (v : α) :
    (setGrid e y x c v).kernelOn = e.kernelOn := rfl
@[simp] theorem setGrid_serpentine (e : Engine α) (y x c : Nat) (v : α) :
    (setGrid e y x c v).serpentine = e.serpentine := rfl
@[simp] theorem setGrid_width (e : Engine α) (y x c : Nat) (v : α) :
    (setGrid e y x c v).width = e.width := rfl
@[simp] theorem setGrid_height (e : Engine α) (y x c : Nat) (v : α) :
    (setGrid e y x c v).height = e.height := rfl
@[simp] theorem setGrid_bpp (e : Engine α) (y x c : Nat) (v : α) :
    (setGrid e y x c v).bpp = e.bpp := rfl
@[simp] theorem setGrid_channels (e : Engine α) (y x c : Nat) (v : α) :
    (setGrid e y x c v).channels = e.channels := rfl
@[simp] theorem setGrid_paletteSize (e : Engine α) (y x c : Nat) (v : α) :
    (setGrid e y x c v).paletteSize = e.paletteSize := rfl
@[simp] theorem setGrid_kernelRows (e : Engine α) (y x c : Nat) (v : α) :
    (setGrid e y x c v).kernelRows = e.kernelRows := rfl
@[simp] theorem setGrid_kernelCols (e : Engine α) (y x c : Nat) (v : α) :
    (setGrid e y x c v).kernelCols = e.kernelCols := rfl
@[simp] theorem setGrid_kernelOrigin (e : Engine α) (y x c : Nat) (v : α) :
    (setGrid e y x c v).kernelOrigin = e.kernelOrigin := rfl
@[simp] theorem setGrid_bppLegal (e : Engine α) (y x c : Nat) (v : α) :
    (setGrid e y x c v).bppLegal = e.bppLegal := rfl
@[simp] theorem setGrid_tiles (e : Engine α) (y x c : Nat) (v : α) :
    (setGrid e y x c v).tiles = e.tiles := rfl
@[simp] theorem setIdx_kernelOn (e : Engine α) (s x : Nat) (v : Byte) :
    (setIdx e s x v).kernelOn = e.kernelOn := rfl
@[simp] theorem setIdx_serpentine (e : Engine α) (s x : Nat) (v : Byte) :
    (setIdx e s x v).serpentine = e.serpentine := rfl
@[simp] theorem setIdx_width (e : Engine α) (s x : Nat) (v : Byte) :
    (setIdx e s x v).width = e.width := rfl
@[simp] theorem setIdx_height (e : Engine α) (s x : Nat) (v : Byte) :
    (setIdx e s x v).height = e.height := rfl
@[simp] theorem setIdx_bpp (e : Engine α) (s x : Nat) (v : Byte) :
    (setIdx e s x v).bpp = e.bpp := rfl
@[simp] theorem setIdx_channels (e : Engine α) (s x : Nat) (v : Byte) :
    (setIdx e s x v).channels = e.channels := rfl
@[simp] theorem setIdx_paletteSize (e : Engine α) (s x : Nat) (v : Byte) :
    (setIdx e s x v).paletteSize = e.paletteSize := rfl
@[simp] theorem setIdx_kernelRows (e : Engine α) (s x : Nat) (v : Byte) :
    (setIdx e s x v).kernelRows = e.kernelRows := rfl
@[simp] theorem setIdx_kernelCols (e : Engine α) (s x : Nat) (v : Byte) :
    (setIdx e s x v).kernelCols = e.kernelCols := rfl
@[simp] theorem setIdx_kernelOrigin (e : Engine α) (s x : Nat) (v : Byte) :
    (setIdx e s x v).kernelOrigin = e.kernelOrigin := rfl
@[simp] theorem setIdx_bppLegal (e : Engine α) (s x : Nat) (v : Byte) :
    (setIdx e s x v).bppLegal = e.bppLegal := rfl
@[simp] theorem setIdx_tiles (e : Engine α) (s x : Nat) (v : Byte) :
    (setIdx e s x v).tiles = e.tiles := rfl

end Sys2Proof.Machine
end

