-- ==== Sys2Proof/Laws/Memory.lean ====
section
/-! SUPPORT. The laws of one memory (read after write, the canonical form) and of the positions of
elements (two elements of one space never share a position). -/

namespace Sys2Proof.Machine

variable {α β : Type}

@[simp] theorem Mem.read_nil (k : Nat) : Mem.read ([] : Mem β) k = none := rfl

/-- A read of the position written gives the value written. -/
@[simp] theorem Mem.read_write_same (m : Mem β) (k : Nat) (v : β) :
    (m.write k v).read k = some v := by
  induction m with
  | nil => simp [Mem.write, Mem.read]
  | cons p m ih =>
    obtain ⟨j, u⟩ := p
    rw [Mem.write]
    split_ifs with h₁ h₂
    · simp [Mem.read]
    · simp [Mem.read]
    · simp [Mem.read, h₁, h₂, ih]

/-- A write leaves every other position alone. -/
theorem Mem.read_write_other (m : Mem β) {k j : Nat} (v : β) (h : j ≠ k) :
    (m.write k v).read j = m.read j := by
  induction m with
  | nil => simp [Mem.write, Mem.read, h]
  | cons p m ih =>
    obtain ⟨i, u⟩ := p
    rw [Mem.write]
    split_ifs with h₁ h₂
    · subst h₁; simp [Mem.read, h]
    · simp only [Mem.read, if_neg h]
      split_ifs <;> first | rfl | omega
    · simp only [Mem.read, ih]

theorem Mem.read_write (m : Mem β) (k j : Nat) (v : β) :
    (m.write k v).read j = if j = k then some v else m.read j := by
  split_ifs with h
  · subst h; simp
  · exact Mem.read_write_other m v h

/-- Writing the value that is listed changes nothing. -/
theorem Mem.write_read_same {m : Mem β} {k : Nat} {v : β} (h : m.read k = some v) :
    m.write k v = m := by
  induction m with
  | nil => simp at h
  | cons p m ih =>
    obtain ⟨j, u⟩ := p
    rw [Mem.read] at h
    split_ifs at h with h₁ h₂
    · cases h; simp [Mem.write, h₁]
    · simp [Mem.write, h₁, h₂, ih h]

theorem Mem.risingFrom_write {size lo k : Nat} {m : Mem β} (v : β)
    (hm : Mem.risingFrom size lo m = true) (hlo : lo ≤ k) (hk : k < size) :
    Mem.risingFrom size lo (m.write k v) = true := by
  induction m generalizing lo with
  | nil => simp [Mem.write, Mem.risingFrom, hlo, hk]
  | cons p m ih =>
    obtain ⟨j, u⟩ := p
    simp only [Mem.risingFrom, Bool.and_eq_true, decide_eq_true_eq] at hm
    rw [Mem.write]
    split_ifs with h₁ h₂
    · subst h₁; simpa [Mem.risingFrom] using hm
    · simp only [Mem.risingFrom, Bool.and_eq_true, decide_eq_true_eq]
      exact ⟨⟨hlo, hk⟩, ⟨by omega, hm.1.2⟩, hm.2⟩
    · simp only [Mem.risingFrom, Bool.and_eq_true, decide_eq_true_eq]
      exact ⟨hm.1, ih hm.2 (by omega)⟩

/-- A write inside the space keeps the canonical form. -/
theorem Mem.wf_write {size k : Nat} {m : Mem β} (v : β) (hm : m.wf size = true) (hk : k < size) :
    (m.write k v).wf size = true :=
  Mem.risingFrom_write v hm (Nat.zero_le k) hk

@[simp] theorem Mem.wf_nil (size : Nat) : Mem.wf size ([] : Mem β) = true := rfl

/-! ### positions -/

theorem gridKey_inj {y x c y' x' c' : Nat} (hx : x < 65536) (hc : c < 4) (hx' : x' < 65536)
    (hc' : c' < 4) (h : gridKey y x c = gridKey y' x' c') : y = y' ∧ x = x' ∧ c = c' := by
  unfold gridKey at h; omega

theorem palKey_inj {i c i' c' : Nat} (hc : c < 4) (hc' : c' < 4) (h : palKey i c = palKey i' c') :
    i = i' ∧ c = c' := by
  unfold palKey at h; omega

theorem kerKey_inj {r k r' k' : Nat} (hk : k < 8) (hk' : k' < 8) (h : kerKey r k = kerKey r' k') :
    r = r' ∧ k = k' := by
  unfold kerKey at h; omega

theorem idxKey_inj {s x s' x' : Nat} (hx : x < 65536) (hx' : x' < 65536)
    (h : idxKey s x = idxKey s' x') : s = s' ∧ x = x' := by
  unfold idxKey at h; omega

theorem gridKey_lt {y x c : Nat} (hy : y < 65536) (hx : x < 65536) (hc : c < 4) :
    gridKey y x c < gridSize := by
  unfold gridKey gridSize; omega

theorem palKey_lt {i c : Nat} (hi : i < 256) (hc : c < 4) : palKey i c < palSize := by
  unfold palKey palSize; omega

theorem kerKey_lt {r k : Nat} (hr : r < 8) (hk : k < 8) : kerKey r k < kerSize := by
  unfold kerKey kerSize; omega

theorem idxKey_lt {s x : Nat} (hs : s < 8) (hx : x < 65536) : idxKey s x < idxSize := by
  unfold idxKey idxSize; omega

/-! ### ranges of the register fields -/

theorem Engine.width_lt (e : Engine α) : e.width < 65536 := (e.dim.extractLsb' 0 16).isLt

theorem Engine.height_lt (e : Engine α) : e.height < 65536 := (e.dim.extractLsb' 16 16).isLt

theorem Engine.channels_le (e : Engine α) : e.channels ≤ 4 := by
  have := (e.fmt.extractLsb' 4 2).isLt
  unfold Engine.channels; omega

theorem Engine.channels_pos (e : Engine α) : 0 < e.channels := Nat.succ_pos _

theorem Engine.kernelRows_le (e : Engine α) : e.kernelRows ≤ 8 := by
  have := (e.kgeom.extractLsb' 0 3).isLt
  unfold Engine.kernelRows; omega

theorem Engine.kernelCols_le (e : Engine α) : e.kernelCols ≤ 8 := by
  have := (e.kgeom.extractLsb' 4 3).isLt
  unfold Engine.kernelCols; omega

theorem Engine.bppLegal_iff (e : Engine α) :
    e.bppLegal = true ↔ e.bpp = 2 ∨ e.bpp = 4 ∨ e.bpp = 8 := by
  simp [Engine.bppLegal, or_assoc]

theorem Engine.paletteSize_pos (e : Engine α) : 0 < e.paletteSize := Nat.two_pow_pos _

theorem Engine.paletteSize_le {e : Engine α} (h : e.bppLegal = true) : e.paletteSize ≤ 256 := by
  rcases (Engine.bppLegal_iff e).1 h with h | h | h <;> simp [Engine.paletteSize, h]

/-! ### elements under writes -/

theorem gridAt_setGrid_same (P : Params α) (e : Engine α) (y x c : Nat) (v : α) :
    gridAt P (setGrid e y x c v) y x c = v := by
  simp [gridAt]

theorem gridAt_setGrid_other (P : Params α) (e : Engine α) {y x c y' x' c' : Nat} (v : α)
    (h : gridKey y' x' c' ≠ gridKey y x c) :
    gridAt P (setGrid e y x c v) y' x' c' = gridAt P e y' x' c' := by
  simp [gridAt, Mem.read_write_other _ _ h]

@[simp] theorem gridAt_setIdx (P : Params α) (e : Engine α) (s x : Nat) (v : Byte) :
    gridAt P (setIdx e s x v) = gridAt P e := rfl

@[simp] theorem palAt_setIdx (P : Params α) (e : Engine α) (s x : Nat) (v : Byte) :
    palAt P (setIdx e s x v) = palAt P e := rfl

@[simp] theorem palAt_setGrid (P : Params α) (e : Engine α) (y x c : Nat) (v : α) :
    palAt P (setGrid e y x c v) = palAt P e := rfl

@[simp] theorem kerAt_setIdx (P : Params α) (e : Engine α) (s x : Nat) (v : Byte) :
    kerAt P (setIdx e s x v) = kerAt P e := rfl

@[simp] theorem kerAt_setGrid (P : Params α) (e : Engine α) (y x c : Nat) (v : α) :
    kerAt P (setGrid e y x c v) = kerAt P e := rfl

@[simp] theorem idxAt_setGrid (P : Params α) (e : Engine α) (y x c : Nat) (v : α) :
    idxAt P (setGrid e y x c v) = idxAt P e := rfl

theorem idxAt_setIdx_same (P : Params α) (e : Engine α) (s x : Nat) (v : Byte) :
    idxAt P (setIdx e s x v) s x = v := by
  simp [idxAt]

theorem idxAt_setIdx_other (P : Params α) (e : Engine α) {s x s' x' : Nat} (v : Byte)
    (h : idxKey s' x' ≠ idxKey s x) : idxAt P (setIdx e s x v) s' x' = idxAt P e s' x' := by
  simp [idxAt, Mem.read_write_other _ _ h]

end Sys2Proof.Machine
end

