-- ==== Sys2Proof/Laws/Bitplane.lean ====
section
/-! SUPPORT. Bits of a packed byte, the lengths of the pieces of a tile row, and which byte of a row
stands at which position. -/

namespace Sys2Proof.Machine

variable {α : Type}

/-- Pieces of one length: the length of their concatenation. -/
theorem length_flatMap_range {β : Type} {n k : Nat} {f : Nat → List β}
    (h : ∀ i < n, (f i).length = k) : ((List.range n).flatMap f).length = n * k := by
  induction n with
  | zero => simp
  | succ n ih =>
    rw [List.range_succ, List.flatMap_append, List.length_append,
      ih fun i hi => h i (Nat.lt_succ_of_lt hi)]
    simp [h n (Nat.lt_succ_self n), Nat.succ_mul]

/-- Pieces of one length: the element at place `j` of piece `i`. -/
theorem getD_flatMap_range {β : Type} {n k : Nat} {f : Nat → List β} (d : β)
    (h : ∀ i < n, (f i).length = k) {i j : Nat} (hi : i < n) (hj : j < k) :
    ((List.range n).flatMap f).getD (i * k + j) d = (f i).getD j d := by
  induction n with
  | zero => exact absurd hi (Nat.not_lt_zero i)
  | succ n ih =>
    have hlen := length_flatMap_range fun i hi => h i (Nat.lt_succ_of_lt hi)
    rw [List.range_succ, List.flatMap_append]
    rcases Nat.lt_succ_iff_lt_or_eq.1 hi with hin | rfl
    · have : (i + 1) * k ≤ n * k := Nat.mul_le_mul_right k hin
      rw [Nat.succ_mul] at this
      rw [List.getD_append _ _ _ _ (by omega)]
      exact ih (fun i hi => h i (Nat.lt_succ_of_lt hi)) hin
    · rw [List.getD_append_right _ _ _ _ (by omega), hlen]
      simp

theorem length_planeRows (P : Params α) (e : Engine α) (t p : Nat) :
    ((List.range 8).flatMap fun r => planeWord P e t p r).length = 16 :=
  length_flatMap_range (k := 2) fun _ _ => rfl

theorem length_tileBytes (P : Params α) (e : Engine α) (t : Nat) :
    (tileBytes P e t).length = e.bpp / 2 * 16 :=
  length_flatMap_range fun q _ => length_planeRows P e t (2 * q)

theorem length_rowBytes (P : Params α) (e : Engine α) : (rowBytes P e).length = rowNeed e := by
  rw [rowBytes, length_flatMap_range fun t _ => length_tileBytes P e t, rowNeed]
  ring

/-- The byte of tile `t`, plane `2q + b`, row `r` in what one ENCROW appends. -/
theorem getD_rowBytes (P : Params α) (e : Engine α) {t q r b : Nat} (ht : t < e.tiles)
    (hq : q < e.bpp / 2) (hr : r < 8) (hb : b < 2) :
    (rowBytes P e).getD (t * (e.bpp / 2 * 16) + (q * 16 + (r * 2 + b))) 0 =
      planeByte P e t (2 * q + b) r := by
  have hin : q * 16 + (r * 2 + b) < e.bpp / 2 * 16 := by omega
  rw [rowBytes, getD_flatMap_range 0 (fun t _ => length_tileBytes P e t) ht hin, tileBytes,
    getD_flatMap_range 0 (fun q _ => length_planeRows P e t (2 * q)) hq (by omega),
    getD_flatMap_range (k := 2) 0 (fun r _ => rfl) hr hb]
  obtain rfl | rfl : b = 0 ∨ b = 1 := by omega
  · rfl
  · rfl

theorem bitOf_getLsbD (v : Byte) (p i : Nat) :
    (bitOf v p).getLsbD i = (decide (i = 0) && v.getLsbD p) := by
  simp only [bitOf, BitVec.getLsbD_and, BitVec.getLsbD_ushiftRight, BitVec.getLsbD_one]
  by_cases h : i = 0 <;> simp [h]

/-- A bit of bytes ored together. -/
theorem foldl_or_getLsbD {ι : Type} (l : List ι) (f : ι → Byte) (acc : Byte) (i : Nat) :
    (l.foldl (fun acc x => acc ||| f x) acc).getLsbD i =
      (acc.getLsbD i || l.any fun x => (f x).getLsbD i) := by
  induction l generalizing acc with
  | nil => simp
  | cons x l ih =>
    simp only [List.foldl_cons, ih, List.any_cons, BitVec.getLsbD_or, Bool.or_assoc]

/-- Pixel `x` of a packed byte stands at bit `7 - x`. -/
theorem planeByte_getLsbD (P : Params α) (e : Engine α) (t p r : Nat) {x : Nat} (hx : x < 8) :
    (planeByte P e t p r).getLsbD (7 - x) = (idxAt P e r (8 * t + x)).getLsbD p := by
  rw [planeByte, foldl_or_getLsbD, Bool.eq_iff_iff]
  simp only [BitVec.getLsbD_shiftLeft, bitOf_getLsbD]
  simp
  constructor
  · rintro ⟨z, hz, ⟨h1, h2⟩, h3, h4⟩
    obtain rfl : z = x := by omega
    exact h4
  · exact fun h => ⟨x, hx, by omega, by omega, h⟩

end Sys2Proof.Machine
end

