-- ==== Sys2Proof/Laws/Fold.lean ====
section
/-! SUPPORT. The inductions over the loops of the commands, packaged once. -/

namespace Sys2Proof.Laws

variable {σ ι β : Type}

/-- What every iteration keeps, the loop keeps. -/
theorem foldl_induct {f : σ → ι → σ} {I : σ → Prop} {l : List ι} {s : σ} (h0 : I s)
    (hstep : ∀ s i, i ∈ l → I s → I (f s i)) : I (l.foldl f s) := by
  induction l generalizing s with
  | nil => exact h0
  | cons i l ih =>
    exact ih (hstep s i (by simp) h0) fun s j hj => hstep s j (by simp [hj])

/-- An observation that no iteration changes is not changed by the loop. -/
theorem foldl_observe {f : σ → ι → σ} {obs : σ → β} {l : List ι} {s : σ}
    (hstep : ∀ s i, i ∈ l → obs (f s i) = obs s) : obs (l.foldl f s) = obs s :=
  foldl_induct (I := fun s' => obs s' = obs s) rfl fun s' i hi h => (hstep s' i hi).trans h

/-- An observation that exactly one iteration changes, the others leaving it alone. -/
theorem foldl_observe_once {f : σ → ι → σ} {obs : σ → β} {g : β → β} {I : σ → Prop} {i₀ : ι}
    {l : List ι} {s : σ} (hl : l.Nodup) (hi₀ : i₀ ∈ l) (h0 : I s)
    (hkeep : ∀ s i, i ∈ l → I s → I (f s i))
    (hit : ∀ s, I s → obs (f s i₀) = g (obs s))
    (miss : ∀ s i, i ∈ l → i ≠ i₀ → I s → obs (f s i) = obs s) :
    obs (l.foldl f s) = g (obs s) := by
  induction l generalizing s with
  | nil => simp at hi₀
  | cons i l ih =>
    rw [List.foldl_cons]
    have hnd := List.nodup_cons.1 hl
    by_cases hi : i = i₀
    · subst hi
      rw [← hit s h0]
      have := foldl_induct (f := f) (l := l) (s := f s i)
        (I := fun s' => I s' ∧ obs s' = obs (f s i)) ⟨hkeep s i (by simp) h0, rfl⟩
        fun s' j hj h => ⟨hkeep s' j (by simp [hj]) h.1,
          (miss s' j (by simp [hj]) (fun hji => hnd.1 (hji ▸ hj)) h.1).trans h.2⟩
      exact this.2
    · rw [ih hnd.2 (by simpa [Ne.symm hi] using hi₀) (hkeep s i (by simp) h0)
        (fun s j hj => hkeep s j (by simp [hj])) (fun s j hj => miss s j (by simp [hj])),
        miss s i (by simp) hi h0]

end Sys2Proof.Laws
end

