-- ==== Sys2Proof/Laws/Dither.lean ====
section
/-! SUPPORT. What each loop of DLINE can do: which fields it leaves alone, which elements it writes,
and the value each element of GRID receives from one pixel. -/

namespace Sys2Proof.Machine

open Sys2Proof.Laws

variable {α : Type}

/-- `e'` agrees with `e` on everything but GRID and IDX. -/
def SameButGridIdx (e e' : Engine α) : Prop := e' = { e with grid := e'.grid, idx := e'.idx }

namespace SameButGridIdx

variable {e e' e'' : Engine α}

theorem refl (e : Engine α) : SameButGridIdx e e := rfl

theorem trans (h : SameButGridIdx e e') (h' : SameButGridIdx e' e'') : SameButGridIdx e e'' := by
  unfold SameButGridIdx at *; rw [h', h]

theorem width_eq (h : SameButGridIdx e e') : e'.width = e.width := by rw [h]; rfl
theorem height_eq (h : SameButGridIdx e e') : e'.height = e.height := by rw [h]; rfl
theorem channels_eq (h : SameButGridIdx e e') : e'.channels = e.channels := by rw [h]; rfl
theorem bpp_eq (h : SameButGridIdx e e') : e'.bpp = e.bpp := by rw [h]; rfl
theorem paletteSize_eq (h : SameButGridIdx e e') : e'.paletteSize = e.paletteSize := by rw [h]; rfl
theorem kernelRows_eq (h : SameButGridIdx e e') : e'.kernelRows = e.kernelRows := by rw [h]; rfl
theorem kernelCols_eq (h : SameButGridIdx e e') : e'.kernelCols = e.kernelCols := by rw [h]; rfl
theorem kernelOrigin_eq (h : SameButGridIdx e e') : e'.kernelOrigin = e.kernelOrigin := by
  rw [h]; rfl
theorem ctrl_eq (h : SameButGridIdx e e') : e'.ctrl = e.ctrl := by rw [h]
theorem dim_eq (h : SameButGridIdx e e') : e'.dim = e.dim := by rw [h]
theorem fmt_eq (h : SameButGridIdx e e') : e'.fmt = e.fmt := by rw [h]
theorem kgeom_eq (h : SameButGridIdx e e') : e'.kgeom = e.kgeom := by rw [h]
theorem err_eq (h : SameButGridIdx e e') : e'.err = e.err := by rw [h]
theorem ecode_eq (h : SameButGridIdx e e') : e'.ecode = e.ecode := by rw [h]
theorem ecmd_eq (h : SameButGridIdx e e') : e'.ecmd = e.ecmd := by rw [h]
theorem qidx_eq (h : SameButGridIdx e e') : e'.qidx = e.qidx := by rw [h]
theorem qin_eq (h : SameButGridIdx e e') : e'.qin = e.qin := by rw [h]
theorem pal_eq (h : SameButGridIdx e e') : e'.pal = e.pal := by rw [h]
theorem ker_eq (h : SameButGridIdx e e') : e'.ker = e.ker := by rw [h]
theorem out_eq (h : SameButGridIdx e e') : e'.out = e.out := by rw [h]
theorem resets_eq (h : SameButGridIdx e e') : e'.resets = e.resets := by rw [h]
theorem palAt_eq (P : Params α) (h : SameButGridIdx e e') : palAt P e' = palAt P e := by rw [h]; rfl
theorem kerAt_eq (P : Params α) (h : SameButGridIdx e e') : kerAt P e' = kerAt P e := by rw [h]; rfl

theorem neighbour_eq (h : SameButGridIdx e e') : neighbour e' = neighbour e := by
  funext rtl y x r k; simp [neighbour, h.kernelOrigin_eq]

theorem insideImage_eq (h : SameButGridIdx e e') : insideImage e' = insideImage e := by
  funext n; simp [insideImage, h.width_eq, h.height_eq]

theorem kernelCells_eq (h : SameButGridIdx e e') : kernelCells e' = kernelCells e := by
  simp [kernelCells, h.kernelRows_eq, h.kernelCols_eq]

theorem nearest_eq (P : Params α) (h : SameButGridIdx e e') (a : Colour α) :
    nearest P e' a = nearest P e a := by
  rw [h]; rfl

end SameButGridIdx

theorem sameButGridIdx_setGrid (e : Engine α) (y x c : Nat) (v : α) :
    SameButGridIdx e (setGrid e y x c v) := rfl

theorem sameButGridIdx_setIdx (e : Engine α) (s x : Nat) (v : Byte) :
    SameButGridIdx e (setIdx e s x v) := rfl

theorem sameButGridIdx_foldl {ι : Type} {f : Engine α → ι → Engine α} {l : List ι} (e : Engine α)
    (h : ∀ e i, SameButGridIdx e (f e i)) : SameButGridIdx e (l.foldl f e) :=
  foldl_induct (I := SameButGridIdx e) (SameButGridIdx.refl e) fun s i _ hs => hs.trans (h s i)

theorem sameButGridIdx_addPixel (P : Params α) (ny nx : Nat) (wt : α) (err : Colour α)
    (e : Engine α) : SameButGridIdx e (addPixel P ny nx wt err e) :=
  sameButGridIdx_foldl e fun _ _ => sameButGridIdx_setGrid ..

theorem sameButGridIdx_spreadCell (P : Params α) (rtl : Bool) (y x : Nat) (err : Colour α)
    (e : Engine α) (cell : Nat × Nat) : SameButGridIdx e (spreadCell P rtl y x err e cell) := by
  unfold spreadCell
  split_ifs
  · exact SameButGridIdx.refl e
  · exact sameButGridIdx_addPixel ..
  · exact SameButGridIdx.refl e

theorem sameButGridIdx_spreadError (P : Params α) (rtl : Bool) (y x : Nat) (err : Colour α)
    (e : Engine α) : SameButGridIdx e (spreadError P rtl y x err e) :=
  sameButGridIdx_foldl e fun e cell => sameButGridIdx_spreadCell P rtl y x err e cell

theorem sameButGridIdx_ditherPixel (P : Params α) (rtl : Bool) (y : Nat) (e : Engine α) (x : Nat) :
    SameButGridIdx e (ditherPixel P rtl y e x) :=
  (sameButGridIdx_setIdx ..).trans (sameButGridIdx_spreadError ..)

theorem sameButGridIdx_diffuseLine (P : Params α) (y : Nat) (e : Engine α) :
    SameButGridIdx e (diffuseLine P y e) :=
  sameButGridIdx_foldl e fun e x => sameButGridIdx_ditherPixel P _ y e x

theorem sameButGridIdx_plainLine (P : Params α) (y : Nat) (e : Engine α) :
    SameButGridIdx e (plainLine P y e) :=
  sameButGridIdx_foldl e fun _ _ => sameButGridIdx_setIdx ..

theorem sameButGridIdx_dlineRun (P : Params α) (y : Nat) (e : Engine α) :
    SameButGridIdx e (dlineRun P y e) := by
  unfold dlineRun
  split_ifs
  · exact sameButGridIdx_diffuseLine ..
  · exact sameButGridIdx_plainLine ..

/-! ### what a pixel's spreading does to IDX and GRID -/

@[simp] theorem addPixel_idx (P : Params α) (ny nx : Nat) (wt : α) (err : Colour α)
    (e : Engine α) : (addPixel P ny nx wt err e).idx = e.idx :=
  foldl_observe (obs := Engine.idx) fun _ _ _ => rfl

@[simp] theorem spreadCell_idx (P : Params α) (rtl : Bool) (y x : Nat) (err : Colour α)
    (e : Engine α) (cell : Nat × Nat) : (spreadCell P rtl y x err e cell).idx = e.idx := by
  unfold spreadCell; split_ifs <;> simp

@[simp] theorem spreadError_idx (P : Params α) (rtl : Bool) (y x : Nat) (err : Colour α)
    (e : Engine α) : (spreadError P rtl y x err e).idx = e.idx :=
  foldl_observe (obs := Engine.idx) fun _ _ _ => spreadCell_idx ..

theorem ditherPixel_idx (P : Params α) (rtl : Bool) (y : Nat) (e : Engine α) (x : Nat) :
    (ditherPixel P rtl y e x).idx =
      e.idx.write (idxKey (slotOf y) x) (BitVec.ofNat 8 (nearest P e (clampedColour P e y x))) := by
  simp [ditherPixel, recordIndex]

theorem plainLine_grid (P : Params α) (y : Nat) (e : Engine α) : (plainLine P y e).grid = e.grid :=
  foldl_observe (obs := Engine.grid) fun _ _ _ => rfl

/-- The channel written at a pixel receives its contribution. -/
theorem gridAt_addPixel_hit (P : Params α) {ny nx c : Nat} (wt : α) (err : Colour α)
    (e : Engine α) (hc : c < e.channels) :
    gridAt P (addPixel P ny nx wt err e) ny nx c =
      contribution P.num (gridAt P e ny nx c) (err c) wt :=
  foldl_observe_once (obs := fun e => gridAt P e ny nx c)
    (g := fun old => contribution P.num old (err c) wt) (I := fun _ => True)
    List.nodup_range (List.mem_range.2 hc) trivial (fun _ _ _ _ => trivial)
    (fun e _ => gridAt_setGrid_same ..)
    (fun e i _ hi _ => gridAt_setGrid_other P e _ (by unfold gridKey; omega))

/-- No position but those of the pixel's channels in use is written. -/
theorem addPixel_read_other (P : Params α) {ny nx key : Nat} (wt : α) (err : Colour α)
    (e : Engine α) (h : ∀ c < e.channels, key ≠ gridKey ny nx c) :
    (addPixel P ny nx wt err e).grid.read key = e.grid.read key :=
  foldl_observe (obs := fun e' : Engine α => e'.grid.read key) fun _ c hc =>
    Mem.read_write_other _ _ (h c (List.mem_range.1 hc))

theorem gridAt_congr_read (P : Params α) {e e' : Engine α} {y x c : Nat}
    (hr : e'.resets = e.resets)
    (h : e'.grid.read (gridKey y x c) = e.grid.read (gridKey y x c)) :
    gridAt P e' y x c = gridAt P e y x c := by
  simp [gridAt, hr, h]

/-- A cell whose weight is not zero and whose neighbour is inside the image. -/
def cellActive (P : Params α) (e : Engine α) (rtl : Bool) (y x : Nat) (cell : Nat × Nat) : Bool :=
  !numEq P.num (kerAt P e cell.1 cell.2) P.num.zero && insideImage e (neighbour e rtl y x cell.1 cell.2)

/-- One kernel cell adds to one pixel or does nothing. -/
theorem spreadCell_eq (P : Params α) (rtl : Bool) (y x : Nat) (err : Colour α) (e : Engine α)
    (cell : Nat × Nat) :
    spreadCell P rtl y x err e cell =
      if cellActive P e rtl y x cell = true then
        addPixel P (neighbour e rtl y x cell.1 cell.2).1.toNat
          (neighbour e rtl y x cell.1 cell.2).2.toNat (kerAt P e cell.1 cell.2) err e
      else e := by
  unfold spreadCell cellActive
  by_cases h : numEq P.num (kerAt P e cell.1 cell.2) P.num.zero <;> simp [h]

theorem SameButGridIdx.cellActive_eq (P : Params α) {e e' : Engine α} (h : SameButGridIdx e e') :
    cellActive P e' = cellActive P e := by
  funext rtl y x cell
  simp [cellActive, h.kerAt_eq, h.insideImage_eq, h.neighbour_eq]

theorem mem_kernelCells (e : Engine α) (r k : Nat) :
    (r, k) ∈ kernelCells e ↔ r < e.kernelRows ∧ k < e.kernelCols := by
  simp [kernelCells]

theorem nodup_kernelCells (e : Engine α) : (kernelCells e).Nodup := by
  unfold kernelCells
  rw [List.nodup_flatMap]
  refine ⟨fun r _ => List.nodup_range.map fun a b h => by simpa using h, ?_⟩
  refine List.nodup_range.imp ?_
  intro a b hab
  rw [Function.onFun, List.disjoint_left]
  simp only [List.mem_map, not_exists, not_and]
  rintro _ ⟨k, _, rfl⟩ k' _ h
  exact hab (congrArg Prod.fst h).symm

/-- The neighbour of a cell inside the image, as natural numbers. -/
theorem insideImage_spec {e : Engine α} {n : Int × Int} (h : insideImage e n = true) :
    ∃ ny nx : Nat, n = ((ny : Int), (nx : Int)) ∧ ny < e.height ∧ nx < e.width := by
  simp only [insideImage, Bool.and_eq_true, decide_eq_true_eq] at h
  exact ⟨n.1.toNat, n.2.toNat, Prod.ext (by simp; omega) (by simp; omega), by omega, by omega⟩

/-- Different cells of one pixel have different neighbours (42_dither.md R145). -/
theorem neighbour_inj (e : Engine α) (rtl : Bool) (y x : Nat) {r k r' k' : Nat}
    (h : neighbour e rtl y x r k = neighbour e rtl y x r' k') : r = r' ∧ k = k' := by
  simp only [neighbour, columnOffset, Prod.mk.injEq] at h
  cases rtl <;> simp at h <;> omega

/-- What spreading one error does to an element that an active cell reaches: one contribution. -/
theorem gridAt_spreadError_hit (P : Params α) (rtl : Bool) (y x : Nat) (err : Colour α)
    (e : Engine α) {r k ny nx c : Nat} (hr : r < e.kernelRows) (hk : k < e.kernelCols)
    (hact : cellActive P e rtl y x (r, k) = true)
    (hn : neighbour e rtl y x r k = ((ny : Int), (nx : Int))) (hc : c < e.channels) :
    gridAt P (spreadError P rtl y x err e) ny nx c =
      contribution P.num (gridAt P e ny nx c) (err c) (kerAt P e r k) := by
  refine foldl_observe_once (obs := fun e' => gridAt P e' ny nx c)
    (g := fun old => contribution P.num old (err c) (kerAt P e r k)) (I := SameButGridIdx e)
    (nodup_kernelCells e) ((mem_kernelCells e r k).2 ⟨hr, hk⟩) (SameButGridIdx.refl e)
    (fun s cell _ hs => hs.trans (sameButGridIdx_spreadCell ..)) ?_ ?_
  · intro s hs
    have hn' : neighbour s rtl y x r k = ((ny : Int), (nx : Int)) := by rw [hs.neighbour_eq, hn]
    rw [spreadCell_eq, hs.cellActive_eq, if_pos hact, hn', hs.kerAt_eq]
    exact gridAt_addPixel_hit P _ err s (by rwa [hs.channels_eq])
  · rintro s ⟨r', k'⟩ - hne hs
    rw [spreadCell_eq, hs.cellActive_eq]
    split_ifs with h
    · obtain ⟨ny', nx', hn', -, hx'⟩ := insideImage_spec (by simpa [cellActive] using (Bool.and_eq_true _ _ ▸ h).2)
      have hn'' : neighbour s rtl y x r' k' = ((ny' : Int), (nx' : Int)) := by
        rw [hs.neighbour_eq]; exact hn'
      obtain ⟨ny₀, nx₀, hn₀, -, hx₀⟩ := insideImage_spec (by simpa [cellActive] using (Bool.and_eq_true _ _ ▸ hact).2)
      have hw := e.width_lt
      have hch := e.channels_le
      simp only [hn, Prod.mk.injEq, Nat.cast_inj] at hn₀
      rw [hn'']
      refine gridAt_congr_read P (sameButGridIdx_addPixel ..).resets_eq
        (addPixel_read_other P _ err s ?_)
      intro c' hc' hkey
      rw [hs.channels_eq] at hc'
      simp only [Int.toNat_natCast] at hkey
      obtain ⟨h1, h2, -⟩ := gridKey_inj (by omega) (by omega) (by omega) (by omega) hkey
      subst h1 h2
      have := neighbour_inj e rtl y x (hn'.trans hn.symm)
      exact hne (Prod.ext this.1 this.2)
    · rfl

/-- Spreading one error leaves alone every position that no active cell reaches. -/
theorem spreadError_read_other (P : Params α) (rtl : Bool) (y x : Nat) (err : Colour α)
    (e : Engine α) {key : Nat}
    (h : ∀ r < e.kernelRows, ∀ k < e.kernelCols, ∀ ny nx c : Nat, c < e.channels →
      cellActive P e rtl y x (r, k) = true →
      neighbour e rtl y x r k = ((ny : Int), (nx : Int)) → key ≠ gridKey ny nx c) :
    (spreadError P rtl y x err e).grid.read key = e.grid.read key := by
  have := foldl_induct (f := spreadCell P rtl y x err) (l := kernelCells e) (s := e)
    (I := fun s => SameButGridIdx e s ∧ s.grid.read key = e.grid.read key)
    ⟨SameButGridIdx.refl e, rfl⟩ ?_
  · exact this.2
  · rintro s ⟨r, k⟩ hcell ⟨hs, hread⟩
    refine ⟨hs.trans (sameButGridIdx_spreadCell ..), ?_⟩
    rw [spreadCell_eq, hs.cellActive_eq]
    split_ifs with hact
    · obtain ⟨hr, hk⟩ := (mem_kernelCells e r k).1 hcell
      obtain ⟨ny, nx, hn, -, -⟩ := insideImage_spec (by simpa [cellActive] using (Bool.and_eq_true _ _ ▸ hact).2)
      rw [hs.neighbour_eq, hn, ← hread]
      refine addPixel_read_other P _ err s fun c hc => ?_
      rw [hs.channels_eq] at hc
      exact h r hr k hk ny nx c hc hact hn
    · exact hread

end Sys2Proof.Machine
end

