-- ==== Sys2Proof/Laws/Control.lean ====
section
/-! SUPPORT. What a checked command can do (be ignored, raise, run), said once, with the cases of each
command's checks, and what one step can do. -/

namespace Sys2Proof.Machine

variable {α : Type}

section Checked

variable {w : Word} {failing : Engine α → Option ErrCode} {run : Engine α → Engine α} {e : Engine α}

theorem checkedCommand_halted (he : e.err = true) : checkedCommand w failing run e = e := by
  rw [checkedCommand, if_pos he]

theorem checkedCommand_raise {c : ErrCode} (he : e.err = false) (hf : failing e = some c) :
    checkedCommand w failing run e = raiseError c w e := by
  rw [checkedCommand, if_neg (by simp [he]), hf]

theorem checkedCommand_run (he : e.err = false) (hf : failing e = none) :
    checkedCommand w failing run e = run e := by
  rw [checkedCommand, if_neg (by simp [he]), hf]

/-- The three things a checked command can do. -/
theorem checkedCommand_cases :
    (e.err = true ∧ checkedCommand w failing run e = e) ∨
    (e.err = false ∧ ∃ c, failing e = some c ∧ checkedCommand w failing run e = raiseError c w e) ∨
    (e.err = false ∧ failing e = none ∧ checkedCommand w failing run e = run e) := by
  cases he : e.err
  · cases hf : failing e with
    | none => exact .inr (.inr ⟨rfl, rfl, checkedCommand_run he hf⟩)
    | some c => exact .inr (.inl ⟨rfl, c, rfl, checkedCommand_raise he hf⟩)
  · exact .inl ⟨rfl, checkedCommand_halted he⟩

end Checked

/-- A line that passes its checks runs. -/
theorem dlineFailing_ready {e : Engine α} {y : Nat} (h : DlineReady e y) :
    dlineFailing y e = none := by
  have hl : e.bppLegal = true := (Engine.bppLegal_iff e).2 h.depth
  have hk : ¬(e.kernelOn = true ∧ e.kernelCols ≤ e.kernelOrigin) :=
    fun a => absurd (h.geometry a.1) (by omega)
  have hs : ¬(e.width = 0 ∨ e.height = 0) := by have := h.width; have := h.height; omega
  have hy : ¬e.height ≤ y := by have := h.line; omega
  rw [dlineFailing, hl, if_neg (by simp), if_neg hs, if_neg hk, if_neg hy]

/-- DLINE that passes its checks, on the machine. -/
theorem exec_dline_ready {s : State} {y : Nat} (h : DlineReady s.toEngine y) :
    exec (.dline y) s = .next { s with toEngine := dlineRun Config.reference y s.toEngine } := by
  rw [exec, execDline, dlineCommand, checkedCommand_run h.running (dlineFailing_ready h)]

/-- NEAR with a legal depth, on the machine. -/
theorem exec_near_ready {s : State} (he : s.err = false) (h : s.bppLegal = true) :
    exec .near s = .next { s with toEngine := nearRun Config.reference s.toEngine } := by
  rw [exec, execNear, nearCommand, checkedCommand_run he (by rw [nearFailing, if_pos h])]

/-- The step on a write to CMD issues the command. -/
theorem step_command {s : State} {w : Word} {rest : List (Event NUM)}
    (h : s.events = .txn (.regWrite 0x08 w) :: rest) :
    step s = issue w { s with events := rest, reply := .none } := by
  simp [step, takeEvent, h, runEvent, cmdNumber]

/-- The step on any other event is the hardware's transaction function. -/
theorem step_quiet {s : State} {ev : Event NUM} {rest : List (Event NUM)} (h : s.events = ev :: rest)
    (hq : ∀ w, ev ≠ .txn (.regWrite 0x08 w)) :
    step s = .next (quietEvent { s with events := rest } ev) := by
  cases ev with
  | hardReset => simp [step, takeEvent, h, runEvent]
  | txn t =>
    cases t with
    | regRead n => simp [step, takeEvent, h, runEvent]
    | memRead a => simp [step, takeEvent, h, runEvent]
    | memWrite st => simp [step, takeEvent, h, runEvent]
    | regWrite n w =>
      have hn : n ≠ cmdNumber := fun hn => hq w (by rw [hn]; rfl)
      simp [step, takeEvent, h, runEvent, hn]

end Sys2Proof.Machine
end

