-- ==== Sys2Proof/Laws/PerInstr.lean ====
section
/-! SUPPORT. Facts of the syntax that hold of every command, one lemma for each constructor. -/

namespace Sys2Proof.Laws.RowPattern

/-- The encoding of a well-formed command lies on its own row of the opcode map (30_encoding.md R91),
the row's assigned bits are inside its mask, and the other bits are the immediate. -/
def Statement (i : Instr) : Prop :=
  i.WellFormed →
    encode i &&& i.rowMask = i.rowMatch ∧ i.rowMatch &&& i.rowMask = i.rowMatch ∧
      encode i &&& ~~~i.rowMask &&& 0xFF0000FF = 0

theorem nop : Statement .nop := by
  intro _
  decide

/-- A 16-bit immediate moved to bits 23:8 leaves the bits of the mask to the opcode. -/
theorem dlineWord (v : Word) (hv : ∀ k, 16 ≤ k → v.getLsbD k = false) :
    ((v <<< 8) ||| 0x00000001#32) &&& 0xFF0000FF#32 = 0x00000001#32 := by
  have mask : ∀ k < 32, (0xFF0000FF#32).getLsbD k = (decide (k < 8) || decide (24 ≤ k)) := by decide
  have one : ∀ k < 32, (0x00000001#32).getLsbD k = decide (k = 0) := by decide
  apply BitVec.eq_of_getLsbD_eq
  intro k hk
  rw [BitVec.getLsbD_and, BitVec.getLsbD_or, BitVec.getLsbD_shiftLeft, mask k hk, one k hk]
  rcases Nat.lt_or_ge k 8 with h8 | h8
  · simp [h8]
  · rcases Nat.lt_or_ge k 24 with h24 | h24
    · simp [show ¬k < 8 by omega, show ¬24 ≤ k by omega, show k ≠ 0 by omega]
    · simp [hv (k - 8) (by omega), show k ≠ 0 by omega]

theorem dline (y : Nat) : Statement (.dline y) := by
  intro h
  have hy : y < 65536 := by simpa [Instr.WellFormed, Instr.wellFormed] using h
  refine ⟨dlineWord _ fun k hk => ?_, ?_, ?_⟩
  · have : y.testBit k = false :=
      Nat.testBit_lt_two_pow (Nat.lt_of_lt_of_le hy (Nat.pow_le_pow_right (Nat.succ_pos 1) hk))
    rw [BitVec.getLsbD_ofNat, this, Bool.and_false]
  · show 0x00000001#32 &&& 0xFF0000FF#32 = 0x00000001#32
    decide
  · show encode (.dline y) &&& ~~~0xFF0000FF#32 &&& 0xFF0000FF#32 = 0#32
    rw [BitVec.and_assoc]
    simp

theorem near : Statement .near := by
  intro _
  decide

theorem encrow : Statement .encrow := by
  intro _
  decide

theorem sreset : Statement .sreset := by
  intro _
  decide

end Sys2Proof.Laws.RowPattern
end

