-- ==== Sys2Proof/Laws/Ports.lean ====
section
/-! SUPPORT. Every operation that writes a memory keeps its canonical form: the ports, and the loops of
DLINE. -/

namespace Sys2Proof.Machine

open Sys2Proof.Laws

variable {α : Type}

/-- The five memories are in canonical form. -/
structure MemoriesWf (e : Engine α) : Prop where
  grid : e.grid.wf gridSize = true
  pal : e.pal.wf palSize = true
  ker : e.ker.wf kerSize = true
  qin : e.qin.wf qinSize = true
  idx : e.idx.wf idxSize = true

theorem memoriesWf_afterReset (α : Type) (k : Nat) : MemoriesWf (Engine.afterReset α k) where
  grid := rfl
  pal := rfl
  ker := rfl
  qin := rfl
  idx := rfl

theorem memoriesWf_setGrid {e : Engine α} (h : MemoriesWf e) {y x c : Nat} (v : α) (hy : y < 65536)
    (hx : x < 65536) (hc : c < 4) : MemoriesWf (setGrid e y x c v) :=
  { h with grid := Mem.wf_write v h.grid (gridKey_lt hy hx hc) }

theorem memoriesWf_setIdx {e : Engine α} (h : MemoriesWf e) {s x : Nat} (v : Byte) (hs : s < 8)
    (hx : x < 65536) : MemoriesWf (setIdx e s x v) :=
  { h with idx := Mem.wf_write v h.idx (idxKey_lt hs hx) }

/-- The write port. -/
theorem memoriesWf_memWrite {e : Engine α} (h : MemoriesWf e) (st : Store α) :
    MemoriesWf (memWrite e st) := by
  rcases st with ⟨⟨y, x, c⟩ | ⟨i, c⟩ | ⟨r, k⟩ | ⟨c⟩, v⟩ | ⟨⟨s, x⟩ | b, v⟩
  · exact memoriesWf_setGrid h v y.2 x.2 c.2
  · exact { h with pal := Mem.wf_write v h.pal (palKey_lt i.2 c.2) }
  · exact { h with ker := Mem.wf_write v h.ker (kerKey_lt r.2 k.2) }
  · exact { h with qin := Mem.wf_write v h.qin c.2 }
  · exact memoriesWf_setIdx h v s.2 x.2
  · exact h

theorem memoriesWf_addPixel (P : Params α) {e : Engine α} (h : MemoriesWf e) {ny nx : Nat} (wt : α)
    (err : Colour α) (hy : ny < 65536) (hx : nx < 65536) :
    MemoriesWf (addPixel P ny nx wt err e) := by
  have hch := e.channels_le
  refine foldl_induct (I := MemoriesWf) h fun _ c hc hs => ?_
  have := List.mem_range.1 hc
  exact memoriesWf_setGrid hs _ hy hx (by omega)

theorem memoriesWf_spreadCell (P : Params α) {e : Engine α} (h : MemoriesWf e) (rtl : Bool)
    (y x : Nat) (err : Colour α) (cell : Nat × Nat) :
    MemoriesWf (spreadCell P rtl y x err e cell) := by
  unfold spreadCell
  split_ifs with hz hin
  · exact h
  · obtain ⟨ny, nx, hn, hy, hx⟩ := insideImage_spec hin
    rw [hn]
    exact memoriesWf_addPixel P h _ _ (Nat.lt_trans hy e.height_lt) (Nat.lt_trans hx e.width_lt)
  · exact h

theorem memoriesWf_ditherPixel (P : Params α) {e : Engine α} (h : MemoriesWf e) (rtl : Bool)
    (y : Nat) {x : Nat} (hx : x < 65536) : MemoriesWf (ditherPixel P rtl y e x) :=
  foldl_induct (I := MemoriesWf)
    (memoriesWf_setIdx h _ (Nat.mod_lt y (by decide)) hx)
    fun _ cell _ hs => memoriesWf_spreadCell P hs rtl y x _ cell

theorem memoriesWf_dlineRun (P : Params α) {e : Engine α} (h : MemoriesWf e) (y : Nat) :
    MemoriesWf (dlineRun P y e) := by
  have hw := e.width_lt
  unfold dlineRun
  split_ifs
  · refine foldl_induct (I := MemoriesWf) h fun _ x hx hs => memoriesWf_ditherPixel P hs _ y ?_
    have : x < e.width := by
      cases hr : rightToLeft e y <;> simpa [scanOrder, hr] using hx
    omega
  · refine foldl_induct (I := MemoriesWf) h fun _ x hx hs =>
      memoriesWf_setIdx hs _ (Nat.mod_lt y (by decide)) ?_
    have := List.mem_range.1 hx
    omega

end Sys2Proof.Machine
end

