-- ==== Sys2Proof/Laws/Quantize.lean ====
section
/-! SUPPORT. The search of the quantizer: what the running best is, its range, and on what it depends. -/

namespace Sys2Proof.Machine

open Sys2Proof.Laws

variable {α : Type} {N : NumOps α}

theorem le_of_numLt {a b : α} (T : N.TotalOrder) (h : numLt N a b = true) : N.le a b = true := by
  rcases T.total a b with hab | hba
  · exact hab
  · simp [numLt, hba] at h

/-- The best so far is an index at which the distance is the least, and no lower index reaches it. -/
structure BestBelow (N : NumOps α) (dist : Nat → α) (n : Nat) (best : α × Nat) : Prop where
  value : best.1 = dist best.2
  range : best.2 < n
  least : ∀ i < n, N.le (dist best.2) (dist i) = true
  first : ∀ i < best.2, numLt N (dist best.2) (dist i) = true

theorem bestBelow_start (T : N.TotalOrder) (dist : Nat → α) : BestBelow N dist 1 (dist 0, 0) where
  value := rfl
  range := Nat.one_pos
  least i hi := by rw [Nat.lt_one_iff.1 hi]; exact T.refl _
  first i hi := absurd hi (Nat.not_lt_zero i)

/-- One step of the search extends the range by one index. -/
theorem bestBelow_step (T : N.TotalOrder) {dist : Nat → α} {n : Nat} {best : α × Nat}
    (h : BestBelow N dist n best) : BestBelow N dist (n + 1) (nearestStep N dist best n) := by
  unfold nearestStep
  split_ifs with hlt
  · rw [h.value] at hlt
    exact {
      value := rfl
      range := Nat.lt_succ_self n
      least := fun i hi => by
        rcases Nat.lt_succ_iff_lt_or_eq.1 hi with hi | rfl
        · exact T.trans _ _ _ (le_of_numLt T hlt) (h.least i hi)
        · exact T.refl _
      first := fun i hi => by
        by_contra hc
        have hle : N.le (dist i) (dist n) = true := by simpa [numLt] using hc
        have := T.trans _ _ _ (h.least i hi) hle
        simp [numLt, this] at hlt }
  · rw [h.value] at hlt
    exact {
      value := h.value
      range := Nat.lt_succ_of_lt h.range
      least := fun i hi => by
        rcases Nat.lt_succ_iff_lt_or_eq.1 hi with hi | rfl
        · exact h.least i hi
        · simpa [numLt] using hlt
      first := h.first }

/-- After any number of further indices. -/
theorem bestBelow_search (T : N.TotalOrder) (dist : Nat → α) (n : Nat) :
    BestBelow N dist (n + 1) ((List.range' 1 n).foldl (nearestStep N dist) (dist 0, 0)) := by
  induction n with
  | zero => exact bestBelow_start T dist
  | succ n ih =>
    rw [List.range'_1_concat, List.foldl_concat, Nat.add_comm 1 n]
    exact bestBelow_step T ih

/-- The index found is in range, whatever the order does. -/
theorem leastIndex_lt (N : NumOps α) (dist : Nat → α) {n : Nat} (hn : 0 < n) :
    leastIndex N dist n < n := by
  refine foldl_induct (I := fun best : α × Nat => best.2 < n) hn fun best i hi hb => ?_
  have hi := List.mem_range'_1.1 hi
  unfold nearestStep
  split_ifs
  · show i < n
    omega
  · exact hb

theorem nearest_lt (P : Params α) (e : Engine α) (a : Colour α) : nearest P e a < e.paletteSize :=
  leastIndex_lt _ _ e.paletteSize_pos

/-- The distance depends on the channels in use only. -/
theorem dist2_congr (N : NumOps α) {ch : Nat} {a a' p p' : Colour α} (ha : ∀ c < ch, a' c = a c)
    (hp : ∀ c < ch, p' c = p c) : dist2 N ch a' p' = dist2 N ch a p := by
  unfold dist2
  induction ch with
  | zero => rfl
  | succ n ih =>
    rw [List.range_succ, List.foldl_concat, List.foldl_concat,
      ih (fun c hc => ha c (Nat.lt_succ_of_lt hc)) (fun c hc => hp c (Nat.lt_succ_of_lt hc)),
      ha n (Nat.lt_succ_self n), hp n (Nat.lt_succ_self n)]

end Sys2Proof.Machine
end

