-- ==== Sys2Proof/Laws/Spaces.lean ====
section
/-! SUPPORT. Space ids and single coordinates, both ways. -/

namespace Sys2Proof.Machine

theorem spaceOfId_spaceId (sp : Space) : spaceOfId (spaceId sp) = some sp := by
  cases sp <;> rfl

theorem spaceId_of_spaceOfId {n : Nat} {sp : Space} (h : spaceOfId n = some sp) :
    spaceId sp = n := by
  unfold spaceOfId at h
  split at h <;> cases h <;> rfl

/-- A coordinate in range is itself. -/
theorem coord_val {n : Nat} (v : Fin n) : coord n v = some v := by
  rw [coord, dif_pos v.isLt]

theorem coord_eq_some {n v : Nat} {w : Fin n} : coord n v = some w ↔ w.val = v := by
  unfold coord
  split_ifs with h
  · rw [Option.some.injEq, Fin.ext_iff]
    exact eq_comm
  · exact ⟨fun hn => (by cases hn), fun hw => absurd (hw ▸ w.isLt) h⟩

end Sys2Proof.Machine
end

