-- ==== Sys2Proof/Tests/Slice0.lean ====
section
/-! SUPPORT. The model's own tests: decoding on words written out from the encoding table, small
vectors of 95_test_vectors.md, and for every statement with hypotheses a state that meets them. -/

namespace Sys2Proof.Tests

open Sys2Proof.Machine

/-! ### small states, built by the host scripts of the spec -/

/-- The hardware after a script from reset. -/
def setUp (script : List (Event NUM)) : State :=
  { State.reset with toEngine := engineRun Config.reference script (Engine.afterReset NUM 0) }

/-- A state with one event pending. -/
def pending (s : State) (ev : Event NUM) : State := { s with events := [ev] }

/-- A state with an error latched: P4's ENCROW with `BPP = 3`. -/
def halted : State := setUp [setdim 8 8, wreg 0x03 0x00000003, commandLine .encrow]

/-- The 2 bpp registers, geometry and palette `PAL1` of 95_test_vectors.md part 2.2. -/
def image (dim ctrl kgeom : Word) (more : List (Event NUM)) : State :=
  setUp ([wreg 0x03 0x00000002, wreg 0x02 dim, wreg 0x01 ctrl, wreg 0x04 kgeom] ++
    loadpal 0 [0, 1 / 4, 1 / 2, 1] ++ more)

/-- V-D6, with the control word `ctrl` and the values of line 1. -/
def twoByTwo (ctrl : Word) (line1 : List NUM) : State :=
  image 0x00020002 ctrl 0x00000121
    (loadker 0 [0, 0, 1 / 2] ++ loadker 1 [0, 0, 1 / 2] ++ loadrow 0 0 [0, 0] ++ loadrow 1 0 line1)

/-- V-D9: three pixels, the kernel of one row, all zero. -/
def zeroKernel (ctrl : Word) : State :=
  image 0x00010003 ctrl 0x00000120 (loadker 0 [0, 0, 0] ++ loadrow 0 0 [3 / 8, 5 / 8, 7 / 8])

/-- V-D8: four pixels at `1/4`, the Floyd-Steinberg kernel. -/
def uniform : State :=
  image 0x00010004 0x00000001 0x00000121
    (loadker 0 [0, 0, 7 / 16] ++ loadker 1 [3 / 16, 5 / 16, 1 / 16] ++
      loadrow 0 0 [1 / 4, 1 / 4, 1 / 4, 1 / 4])

/-- V-D14: line 1 of a serpentine image, two-column kernel. -/
def serpentineLine : State :=
  image 0x00020004 0x00000003 0x00000010
    (loadker 0 [0, 1 / 2] ++ loadrow 0 0 [0, 0, 0, 0] ++ loadrow 1 0 [3 / 8, 3 / 8, 3 / 8, 3 / 8])

/-- The tile of V-E1. -/
def tile : State :=
  setUp ([wreg 0x03 0x00000002, wreg 0x02 0x00080008] ++
    loadidx 0 [0, 1, 2, 3, 0, 1, 2, 3] ++ loadidx 1 [3, 3, 3, 3, 0, 0, 0, 0] ++
    loadidx 2 [1, 0, 0, 0, 0, 0, 0, 0] ++ loadidx 3 [0, 0, 0, 0, 0, 0, 0, 2] ++
    loadidx 4 (List.replicate 8 0) ++ loadidx 5 (List.replicate 8 3) ++
    loadidx 6 (List.replicate 8 1) ++ loadidx 7 (List.replicate 8 2))

/-- The palette of V-N1 to V-N7 with an operand of NEAR. -/
def query (q : List NUM) : State :=
  setUp ([wreg 0x03 0x00000022] ++ loadpal 0 [0, 1, 1, 0] ++ loadpal 1 [0, 1, 0, 0] ++
    loadpal 2 [0, 1, 0, 0] ++ q.zipIdx.map fun v => wmemNum (.qin (Fin.ofNat 4 v.2)) v.1)

/-- What a command leaves, for the tests. -/
def resultOf (i : Instr) (s : State) : State :=
  match exec i s with
  | .next t => t
  | .fault _ => s
  | .refused _ => s

/-- What a step leaves, for the tests. -/
def stepOf (s : State) : State :=
  match step s with
  | .next t => t
  | .fault _ => s
  | .refused _ => s

/-- Indices `0 .. n-1` of a slot. -/
def indices (s : State) (slot n : Nat) : List Nat :=
  (List.range n).map fun x => (idxAt Config.reference s.toEngine slot x).toNat

/-- Channel `c` of pixels `0 .. n-1` of a line. -/
def values (s : State) (y n c : Nat) : List NUM :=
  (List.range n).map fun x => gridAt Config.reference s.toEngine y x c

/-! ### well-formedness (30_encoding.md R93) -/

theorem test_line_index_too_wide_is_ill_formed : ¬(Instr.dline 65536).WellFormed := by decide
theorem test_largest_line_index_is_well_formed : (Instr.dline 65535).WellFormed := by decide

/-! ### decoding: `rsv`, `imm` and `op` written out bit by bit (30_encoding.md R90, R91, R94) -/

theorem test_decode_nop :
    decode (0b00000000#8 ++ 0b0000000000000000#16 ++ 0b00000000#8) = .ok .nop := by decide
theorem test_decode_dline :
    decode (0b00000000#8 ++ 0b1010000000000111#16 ++ 0b00000001#8) = .ok (.dline 40967) := by decide
theorem test_decode_near :
    decode (0b00000000#8 ++ 0b0000000000000000#16 ++ 0b00000010#8) = .ok .near := by decide
theorem test_decode_encrow :
    decode (0b00000000#8 ++ 0b0000000000000000#16 ++ 0b00000011#8) = .ok .encrow := by decide
theorem test_decode_sreset :
    decode (0b00000000#8 ++ 0b0000000000000000#16 ++ 0b00000100#8) = .ok .sreset := by decide

/-- The words of V-C1 are illegal, each for its reason. -/
theorem test_decode_illegal :
    decode 0x01000003 = .error .reservedBits ∧ decode 0x00000103 = .error .immediate ∧
      decode 0x00000005 = .error .opcode ∧ decode 0x000001FF = .error .immediate ∧
      decode 0x01000004 = .error .reservedBits ∧ decode 0x00000100 = .error .immediate := by
  decide

theorem test_table_words :
    decodeTableWord 32 0x00000701 = some (.dline 7) ∧ decodeTableWord 32 0x00000005 = none ∧
      decodeTableWord 8 0x03 = some .encrow := by
  decide

theorem test_fetch_word_runs_first :
    stepOf (State.reset.withFetchWord 32 0x00000002) =
      { State.reset with err := true, ecode := 2, ecmd := 0x00000002 } := by
  decide +kernel

/-! ### the commands, on vectors of 95_test_vectors.md -/

theorem test_nop_in_halted_state : resultOf .nop halted = halted := by decide +kernel

/-- V-D13: three channels, a value above 1 clamped for the decision and not stored. -/
theorem test_dline_three_channels :
    let s := setUp ([wreg 0x03 0x00000022, wreg 0x02 0x00020002, wreg 0x01 1, wreg 0x04 0x121] ++
      loadker 0 [0, 0, 1 / 2] ++ loadker 1 [0, 1 / 2, 0] ++ loadpal 0 [0, 1, 0, 1] ++
      loadpal 1 [0, 0, 1, 1] ++ loadpal 2 [0, 0, 0, 1] ++ loadrow 0 0 [1 / 2, 3 / 4] ++
      loadrow 1 0 [1 / 4, 7 / 8] ++ loadrow 1 1 [1 / 4, 5 / 4] ++ loadrow 1 2 [0, 9 / 8])
    let t := resultOf (.dline 1) s
    (indices t 1 2, values t 1 2 0, values t 1 2 1, values t 1 2 2) =
      ([0, 3], [1 / 4, 1], [1 / 4, 11 / 8], [0, 9 / 8]) := by
  decide +kernel

/-- V-D14: right to left, the kernel mirrored. -/
theorem test_dline_right_to_left :
    let t := resultOf (.dline 1) serpentineLine
    (indices t 1 4, values t 1 4 0, values t 0 4 0) =
      ([2, 1, 2, 1], [27 / 64, 11 / 32, 7 / 16, 3 / 8], [0, 0, 0, 0]) := by
  decide +kernel

/-- V-N3: of three entries at one distance, the lowest. -/
theorem test_near_tie :
    regRead (resultOf .near (query [1 / 2, 0, 0])).toEngine 0x09 = 0 := by decide +kernel

/-- V-N5: the operand is not clamped. -/
theorem test_near_above_one :
    regRead (resultOf .near (query [2, 2, 2])).toEngine 0x09 = 1 := by decide +kernel

/-- V-E1. -/
theorem test_encrow_two_planes :
    (resultOf .encrow tile).out =
      [0x55, 0x33, 0xF0, 0xF0, 0x80, 0x00, 0x00, 0x01, 0x00, 0x00, 0xFF, 0xFF, 0xFF, 0x00, 0x00,
        0xFF] := by
  decide +kernel

/-- V-E7: a build with `OUTCAP = 16`, the second ENCROW. -/
theorem test_encrow_capacity :
    let P : Params NUM := { Config.reference with outCap := 16 }
    let e := encrowCommand P (encrowCommand P tile.toEngine)
    (regRead e 0x05, regRead e 0x06, regRead e 0x07, regRead e 0x0A) = (1, 6, 3, 16) := by
  decide +kernel

/-- P4: SRESET in the halted state keeps the configuration. -/
theorem test_sreset_leaves_halted :
    let t := (resultOf .sreset halted).toEngine
    (regRead t 0x03, regRead t 0x02, regRead t 0x05, regRead t 0x06, regRead t 0x07) =
      (3, 0x00080008, 0, 0, 0) := by
  decide +kernel

/-- V-C8, V-C9. -/
theorem test_registers :
    regRead (setUp [wreg 0x02 0x000A000C]).toEngine 0x05 = 6 ∧
      regRead (setUp [wreg 0x02 0x00090008]).toEngine 0x05 = 4 ∧
      regRead (setUp [wreg 0x04 0xFFFFFFFF]).toEngine 0x04 = 0x00000777 ∧
      regRead (setUp [wreg 0x20 1]).toEngine 0x20 = 0 := by
  decide +kernel

/-- The ids of R60's table, the largest coordinates, a coordinate past its range, an id past the last,
and a write by number that stores and one of the wrong element type. -/
theorem test_ports_by_number :
    portAddr 0 [65535, 65535, 3] = some (.num (.grid 65535 65535 3)) ∧
      portAddr 1 [255, 3] = some (.num (.pal 255 3)) ∧
      portAddr 2 [7, 7] = some (.num (.ker 7 7)) ∧
      portAddr 3 [7, 65535] = some (.byte (.idx 7 65535)) ∧
      portAddr 4 [3] = some (.num (.qin 3)) ∧ portAddr 5 [0] = some (.byte (.out 0)) ∧
      portAddr 4 [4] = none ∧ portAddr 6 [0] = none ∧
      portWriteByte (α := NUM) 3 [1, 2] 7 = some (.memWrite (.byte (.idx 1 2) 7)) ∧
      portWriteNum (α := NUM) 3 [1, 2] 1 = none ∧
      portRead (α := NUM) 5 [9] = some (.memRead (.byte (.out 9))) := by
  decide +kernel

/-! ### witnesses: for each statement with hypotheses, operands and a state that meet them -/

/-- The checks of a line, as one decidable fact. -/
theorem dlineReady_of {s : State} {y : Nat}
    (h : s.err = false ∧ (s.bpp = 2 ∨ s.bpp = 4 ∨ s.bpp = 8) ∧ 0 < s.width ∧ 0 < s.height ∧
      (s.kernelOn = true → s.kernelOrigin < s.kernelCols) ∧ y < s.height) :
    DlineReady s.toEngine y :=
  ⟨h.1, h.2.1, h.2.2.1, h.2.2.2.1, h.2.2.2.2.1, h.2.2.2.2.2⟩

/-- DecodeAndEncodeAreInverse. -/
theorem witness_encode : (Instr.dline 65535).WellFormed ∧
    decode 0x00FFFF01 = .ok (.dline 65535) := by decide

/-- LegalWordsMatchTheOpcodeMap. -/
theorem witness_dline_word : decode 0x00800001 = .ok (.dline 32768) ∧
    4 < (0x00000005#32).toNat % 256 ∧ 0x00800001#32 &&& 0xFF0000FF#32 = 0x00000001#32 := by decide

/-- IllegalWordsRaiseIllcmd: each reason at its boundary, and the legal words beside them. -/
theorem witness_illegal_words :
    (0x01000000#32).toNat / 16777216 ≠ 0 ∧ 4 < (0x00000005#32).toNat % 256 ∧
      ((0x00000102#32).toNat % 256 ≠ 1 ∧ (0x00000102#32).toNat / 256 % 65536 ≠ 0) ∧
      ((0x00FFFF01#32).toNat / 16777216 = 0 ∧ (0x00FFFF01#32).toNat % 256 ≤ 4 ∧
        (0x00FFFF01#32).toNat % 256 = 1) ∧
      ((0x00000004#32).toNat / 16777216 = 0 ∧ (0x00000004#32).toNat % 256 ≤ 4 ∧
        (0x00000004#32).toNat / 256 % 65536 = 0) ∧
      (pending State.reset (.txn (.regWrite 0x08 0x01000000))).events =
        [.txn (.regWrite 0x08 0x01000000)] ∧
      State.reset.err = false := by
  decide +kernel

/-- StepRunsTheDecodedCommand, CommandWriteFollowsTheDispatchRule. -/
theorem witness_command_write :
    (pending halted (.txn (.regWrite 0x08 0x00000701))).events =
      [.txn (.regWrite 0x08 0x00000701)] ∧
      decode 0x00000701 = .ok (.dline 7) := by decide +kernel

/-- HaltedEngineIgnoresOtherWords. -/
theorem witness_halted_word :
    (pending halted (.txn (.regWrite 0x08 0x01000004))).err = true ∧
      (pending halted (.txn (.regWrite 0x08 0x01000004))).events =
        [.txn (.regWrite 0x08 0x01000004)] ∧
      (0x01000004 : Word) ≠ 0x00000004 ∧ Instr.nop ≠ Instr.sreset := by decide +kernel

/-- OnlySresetOrHardwareResetLeavesHalted: each of the three outcomes. -/
theorem witness_leaving_halted :
    (∃ t, step (pending halted (.txn (.regWrite 0x02 5))) = .next t ∧ t.err = true) ∧
      (∃ t, step (pending halted (.txn (.regWrite 0x08 4))) = .next t ∧ t.err = false) ∧
      (∃ t, step (pending halted .hardReset) = .next t ∧ t.err = false) ∧ halted.err = true :=
  ⟨⟨_, rfl, by decide +kernel⟩, ⟨_, rfl, by decide +kernel⟩, ⟨_, rfl, by decide +kernel⟩,
    by decide +kernel⟩

/-- FirstFailingCheckIsRaised: no legal depth; no width; no height; `KX = KW`; `y = HEIGHT`. -/
theorem witness_failing_checks :
    (State.reset.err = false ∧ ¬(State.reset.bpp = 2 ∨ State.reset.bpp = 4 ∨ State.reset.bpp = 8)) ∧
      (let s := image 0x00080000 0 0 [];
        s.err = false ∧ s.bpp = 2 ∧ s.width = 0) ∧
      (let s := image 0x00000008 0 0 [];
        s.err = false ∧ s.bpp = 2 ∧ s.height = 0) ∧
      (let s := image 0x00080008 1 0x00000210 [];
        s.err = false ∧ s.bpp = 2 ∧ 0 < s.width ∧ 0 < s.height ∧ s.kernelOn = true ∧
          s.kernelCols = 2 ∧ s.kernelOrigin = 2) ∧
      (let s := image 0x00080008 1 0x00000110 [];
        s.err = false ∧ s.bpp = 2 ∧ 0 < s.width ∧ (s.kernelOrigin < s.kernelCols) ∧
          s.height = 8) := by
  decide +kernel

/-- FirstFailingCheckIsRaised and EncrowAppendsTheTileRow at the capacity of the reference build: one
byte too many, and just enough. The lists are not built. -/
theorem witness_capacity :
    ∃ s t : State, s.err = false ∧ s.bpp = 2 ∧ 0 < s.width ∧ 0 < s.height ∧
      4294967295 < s.out.length + 16 * (s.width / 8) * (s.bpp / 2) ∧
      t.err = false ∧ t.bpp = 2 ∧ 0 < t.width ∧ 0 < t.height ∧
      t.out.length + 16 * (t.width / 8) * (t.bpp / 2) = 4294967295 := by
  have key : ∀ n, ∃ s : State, s.err = false ∧ s.bpp = 2 ∧ s.width = 8 ∧ s.height = 8 ∧
      s.out.length = n := fun n =>
    ⟨{ State.reset with fmt := 2, dim := 0x00080008, out := List.replicate n 0 }, rfl, rfl,
      by simp [Engine.width], by simp [Engine.height],
      List.length_replicate⟩
  obtain ⟨s, hs, hs2, hsw, hsh, hso⟩ := key 4294967280
  obtain ⟨t, ht, ht2, htw, hth, hto⟩ := key 4294967279
  refine ⟨s, t, hs, hs2, by omega, by omega, ?_, ht, ht2, by omega, by omega, ?_⟩
  · rw [hso, hsw, hs2]
    decide
  · rw [hto, htw, ht2]

/-- RaisingChangesOnlyTheLatch: a command and an illegal word. -/
theorem witness_raising :
    State.reset.err = false ∧ (∃ t, exec .near State.reset = .next t ∧ t.err = true) ∧
      (∃ t, step (pending State.reset (rawCommand 0x00000002)) = .next t ∧ t.err = true) ∧
      ∃ t, step (pending State.reset (rawCommand 0x00000005)) = .next t ∧ t.err = true :=
  ⟨rfl, ⟨_, rfl, rfl⟩, ⟨_, rfl, rfl⟩, ⟨_, rfl, rfl⟩⟩

/-- SresetClearsLatchQidxAndOut, TheTwoResetsCompared, CommandsWriteOnlyWhatTheSummarySays. The word
0x01000004 comes once while halted, once not. -/
theorem witness_sreset :
    (∃ t, exec .sreset halted = .next t) ∧ halted.err = true ∧ Instr.encrow ≠ .sreset ∧
      (pending halted (rawCommand 0x01000004)).err = true ∧
      (pending tile (rawCommand 0x01000004)).err = false ∧
      (pending tile (rawCommand 0x01000004)).events = [.txn (.regWrite 0x08 0x01000004)] :=
  ⟨⟨_, rfl⟩, by decide +kernel⟩

/-- NearestIsTheLeastIndexOfLeastDistance, NearestNeverPicksTheHigherDuplicate and
ClampIsMonotoneAndIdempotent: the rationals are a totally ordered `NUM`. -/
theorem witness_total_order : Config.reference.num.TotalOrder where
  refl a := by simp [Config.reference, Config.rationals]
  trans a b c hab hbc := by
    simp only [Config.reference, Config.rationals, decide_eq_true_eq] at *
    exact le_trans hab hbc
  antisymm a b hab hba := by
    simp only [Config.reference, Config.rationals, decide_eq_true_eq] at *
    exact le_antisymm hab hba
  total a b := by
    simp only [Config.reference, Config.rationals, decide_eq_true_eq]
    exact le_total a b

/-- ClampIsMonotoneAndIdempotent: below 0, above 1, both ends, and a pair in order. -/
theorem witness_clamp :
    let N := Config.rationals
    N.le N.zero N.one = true ∧ numLt N (-1 / 4) N.zero = true ∧ numLt N N.one (3 / 2) = true ∧
      N.le N.zero 1 = true ∧ N.le 1 N.one = true ∧ N.le (-1 / 4) (3 / 2) = true := by
  decide +kernel

/-- NearestNeverPicksTheHigherDuplicate: V-N1's palette has equal entries 0 and 3. -/
theorem witness_duplicate :
    let e := (query [0, 0, 0]).toEngine
    (0 < 3) ∧ ∀ c < e.channels, palAt Config.reference e 0 c = palAt Config.reference e 3 c := by
  decide +kernel

/-- NearestFindsTheExactMatch, at the last index. -/
theorem witness_exact_match :
    let e := (query [0, 0, 0]).toEngine
    Config.reference.num = Config.rationals ∧ 3 < 2 ^ e.bpp ∧
      ∀ c < e.channels, qinAt Config.reference e c = palAt Config.reference e 3 c :=
  ⟨rfl, by decide +kernel, by decide +kernel⟩

/-- NearestDependsOnlyOnItsOperands: the two states differ in DIM. -/
theorem witness_same_operands :
    let e := (query [1, 0, 0]).toEngine
    let e' := { e with dim := 5 }
    e'.bpp = e.bpp ∧ e'.channels = e.channels ∧
      (∀ i < 2 ^ e.bpp, ∀ c < e.channels,
        palAt Config.reference e' i c = palAt Config.reference e i c) ∧
      ∀ c < e.channels, qinAt Config.reference e' c = qinAt Config.reference e c := by
  decide +kernel

/-- NearWritesQidx. -/
theorem witness_near : (query [0, 0, 0]).err = false ∧ (query [0, 0, 0]).bpp = 2 := by
  decide +kernel

/-- NoDitherLineQuantizesEveryPixel, NoDitherIgnoresTheKernel, NoDitherLineIsIdempotent; the key is
one past the last column. -/
theorem witness_no_dither :
    DlineReady (zeroKernel 0).toEngine 0 ∧ (zeroKernel 0).kernelOn = false ∧
      (0x00000002#32).getLsbD 0 = false ∧ 2 < (zeroKernel 0).width ∧
      (∀ x < (zeroKernel 0).width, idxKey 0 3 ≠ idxKey (0 % 8) x) ∧
      ∃ t, exec (.dline 0) (zeroKernel 0) = .next t :=
  ⟨dlineReady_of (by decide +kernel), by decide +kernel, by decide, by decide +kernel,
    by decide +kernel, ⟨_, rfl⟩⟩

/-- DiffusionLineScansInOrder and DiffusionLineWritesOnlyWhatItReaches: the last line of a serpentine
image, scanned right to left, and the first, left to right. -/
theorem witness_diffusion_line :
    DlineReady serpentineLine.toEngine 1 ∧ DlineReady serpentineLine.toEngine 0 ∧
      serpentineLine.kernelOn = true ∧ serpentineLine.serpentine = true ∧ 1 % 2 = 1 ∧
      ¬(0 % 2 = 1) ∧ serpentineLine.height = 2 :=
  ⟨dlineReady_of (by decide +kernel), dlineReady_of (by decide +kernel), by decide +kernel,
    by decide +kernel, rfl, by decide, by decide +kernel⟩

/-- DitherPixelRecordsAndDiffuses: the neighbour right of pixel 0 under the cell of weight `1/2` on line
0, left to right; the neighbour left of pixel 1 under the same cell on line 1, right to left; and
the key of line 0 that no cell of line 1 reaches. -/
theorem witness_dither_pixel :
    let e := (twoByTwo 3 [1 / 8, 1 / 8]).toEngine
    (0 < e.kernelRows ∧ 2 < e.kernelCols ∧ 1 < e.height ∧ 1 < e.width ∧ 0 < e.channels) ∧
      numEq Config.reference.num (kerAt Config.reference e 0 2) Config.reference.num.zero = false ∧
      ((1 : Nat) : Int) = (0 : Nat) + (((2 : Nat) : Int) - e.kernelOrigin) ∧
      ((0 : Nat) : Int) = (1 : Nat) + ((e.kernelOrigin : Int) - (2 : Nat)) ∧
      ∀ ny nx c r : Nat, (ny : Int) = (1 : Nat) + (r : Int) → gridKey 0 1 0 ≠ gridKey ny nx c := by
  refine ⟨by decide +kernel, by decide +kernel, by decide +kernel, by decide +kernel, ?_⟩
  intro ny nx c r h
  unfold gridKey
  omega

/-- ZeroKernelEqualsNoDither. -/
theorem witness_zero_kernel :
    DlineReady (zeroKernel 1).toEngine 0 ∧ (zeroKernel 1).kernelOn = true ∧
      (0x00000000#32).getLsbD 0 = false ∧
      (∀ r < (zeroKernel 1).kernelRows, ∀ k < (zeroKernel 1).kernelCols,
        kerAt Config.reference (zeroKernel 1).toEngine r k = 0) ∧
      lineInUnit Config.reference (zeroKernel 1).toEngine 0 := by
  refine ⟨dlineReady_of (by decide +kernel), by decide +kernel, by decide, by decide +kernel, ?_⟩
  unfold lineInUnit
  decide +kernel

/-- UniformLineAtAPaletteEntryDiffusesNothing. -/
theorem witness_uniform :
    DlineReady uniform.toEngine 0 ∧ uniform.kernelOn = true ∧ 1 < 2 ^ uniform.bpp ∧
      (∀ c < uniform.channels, 0 ≤ palAt Config.reference uniform.toEngine 1 c ∧
        palAt Config.reference uniform.toEngine 1 c ≤ 1) ∧
      (∀ x < uniform.width, ∀ c < uniform.channels,
        gridAt Config.reference uniform.toEngine 0 x c =
          palAt Config.reference uniform.toEngine 1 c) :=
  ⟨dlineReady_of (by decide +kernel), by decide +kernel, by decide +kernel, by decide +kernel,
    by decide +kernel⟩

/-- RightToLeftIsTheMirrorOfLeftToRight: V-D6 with a line that is not its own mirror. -/
theorem witness_mirror :
    let s := twoByTwo 3 [1 / 8, 3 / 8]
    let t := twoByTwo 1 [3 / 8, 1 / 8]
    DlineReady s.toEngine 1 ∧ s.kernelOn = true ∧ s.serpentine = true ∧ 1 % 2 = 1 ∧
      t.kernelOn = true ∧ t.serpentine = false ∧ t.dim = s.dim ∧ t.fmt = s.fmt ∧
      t.kgeom = s.kgeom ∧ t.err = s.err ∧
      (∀ i < 2 ^ s.bpp, ∀ c < s.channels, palAt Config.reference t.toEngine i c =
        palAt Config.reference s.toEngine i c) ∧
      (∀ r < s.kernelRows, ∀ k < s.kernelCols, kerAt Config.reference t.toEngine r k =
        kerAt Config.reference s.toEngine r k) ∧
      (∀ y' < s.height, ∀ x < s.width, ∀ c < s.channels,
        gridAt Config.reference t.toEngine y' x c =
          gridAt Config.reference s.toEngine y' (s.width - 1 - x) c) :=
  ⟨dlineReady_of (by decide +kernel), by decide +kernel⟩

/-- LoadedCommandsIgnoreResetContents: two builds that differ in their reset contents, and engines with
everything a command uses loaded. -/
theorem witness_loaded :
    let P := Config.reference
    let P' : Params NUM := { P with resetNum := fun _ _ _ => 1, resetIdx := fun _ _ => 1 }
    P'.num = P.num ∧ P'.outCap = P.outCap ∧ gridLoaded (zeroKernel 1).toEngine ∧
      palLoaded (zeroKernel 1).toEngine ∧ kerLoaded (zeroKernel 1).toEngine ∧
      qinLoaded (query [0, 0, 0]).toEngine ∧ palLoaded (query [0, 0, 0]).toEngine ∧
      idxLoaded tile.toEngine := by
  refine ⟨rfl, rfl, ?_⟩
  simp only [gridLoaded, palLoaded, kerLoaded, qinLoaded, idxLoaded]
  decide +kernel

/-- EncrowAppendsTheTileRow, EncrowRespectsEveryCapacity (with `OUTCAP` 15 and 16). -/
theorem witness_encrow :
    let e := tile.toEngine
    e.err = false ∧ e.bpp = 2 ∧ 0 < e.width ∧ 0 < e.height ∧
      e.out.length + 16 * (e.width / 8) * (e.bpp / 2) ≤ 4294967295 ∧
      15 < e.out.length + 16 * (e.width / 8) * (e.bpp / 2) ∧
      e.out.length + 16 * (e.width / 8) * (e.bpp / 2) ≤ 16 := by
  decide +kernel

/-- WordsHaveThePlanarLayout, EncodedStreamReadsBack: last tile, pair, row and column. -/
theorem witness_layout :
    let e := { tile.toEngine with dim := 0x00080017, fmt := 0x00000008 }
    1 < e.width / 8 ∧ 3 < e.bpp / 2 ∧ 7 < 8 ∧ e.bpp = 8 ∧ 7 < e.bpp ∧
      (1 * (e.bpp / 2) + 7 / 2) * 8 + 7 = 63 := by
  decide +kernel

/-- IdenticalTilesEncodeIdentically: two tiles of equal indices, the last byte of a tile. -/
theorem witness_identical_tiles :
    let e := (setUp ([wreg 0x03 0x00000002, wreg 0x02 0x00080010] ++
      (List.range 8).flatMap fun s => loadidx (Fin.ofNat 8 s) (List.replicate 16 3))).toEngine
    0 < e.width / 8 ∧ 1 < e.width / 8 ∧
      (∀ r < 8, ∀ x < 8, idxAt Config.reference e r (8 * 0 + x) =
        idxAt Config.reference e r (8 * 1 + x)) ∧ 15 < 16 * (e.bpp / 2) := by
  decide +kernel

/-- EncrowUsesOnlyTheLowBitsOfWholeTiles: indices that differ in a high bit, and in a column past the
whole tiles. -/
theorem witness_low_bits :
    let e := { tile.toEngine with dim := 0x00080009 }
    let e' := setIdx (setIdx e 7 8 1) 7 7 0xFE
    e'.bpp = e.bpp ∧ e'.width = e.width ∧
      ∀ s < 8, ∀ x < 8 * (e.width / 8),
        (idxAt Config.reference e' s x).toNat % 2 ^ e.bpp =
          (idxAt Config.reference e s x).toNat % 2 ^ e.bpp := by
  decide +kernel

/-- RegistersReadAsTheMapSays: the register after OUTLEN, and OUTLEN, which is not beyond it. -/
theorem witness_register_read :
    (pending halted (rreg 0x0B)).events = [.txn (.regRead 0x0B)] ∧ (0x0A : Word) < 0x0B ∧
      ¬(0x0A : Word) < 0x0A := by decide +kernel

/-- RegisterWritesTakeAssignedBits: an RW register, and registers that take nothing. -/
theorem witness_register_write :
    (pending halted (wreg 0x04 0xFFFFFFFF)).events = [.txn (.regWrite 0x04 0xFFFFFFFF)] ∧
      (0x04 : Word) ≠ 0x08 ∧ (0x00 : Word) ≠ 0x01 ∧ (0x00 : Word) ≠ 0x08 ∧
      (0x05 : Word) ≠ 0x04 ∧ (0x09 : Word) ≠ 0x08 := by decide +kernel

/-- MemWriteReplacesOneElement. -/
theorem witness_memory_write :
    (pending halted (wmemNum (.grid 65535 65535 3) (5 / 2))).events =
      [.txn (.memWrite (.num (.grid 65535 65535 3) (5 / 2)))] := by decide +kernel

/-- MemReadReturnsTheElement: an element of each memory that has been written, the last byte of OUT and
the first beyond it. -/
theorem witness_memory_read :
    (pending halted (rmem (.byte (.out 0)))).events = [.txn (.memRead (.byte (.out 0)))] ∧
      (zeroKernel 1).grid.read (gridKey 0 2 0) = some (7 / 8) ∧
      (zeroKernel 1).pal.read (palKey 3 0) = some 1 ∧
      (zeroKernel 1).ker.read (kerKey 0 2) = some 0 ∧
      (query [2, 2, 2]).qin.read 2 = some 2 ∧ tile.idx.read (idxKey 7 7) = some 2 ∧
      15 < (resultOf .encrow tile).out.length ∧ (resultOf .encrow tile).out.length ≤ 16 := by
  decide +kernel

/-- TheTwoResetsCompared. -/
theorem witness_hard_reset : (pending halted .hardReset).events = [.hardReset] := by decide +kernel

/-- UnconfiguredEngineFailsFast. -/
theorem witness_computing_commands :
    (∃ y, Instr.dline 3 = .dline y) ∧ Instr.near = .near ∧ Instr.encrow = .encrow :=
  ⟨⟨3, rfl⟩, rfl, rfl⟩

/-- CommandsWriteOnlyWhatTheSummarySays: a completing command for each clause. -/
theorem witness_summary :
    (∃ t, exec .near (query [0, 0, 0]) = .next t) ∧
      (∃ t, exec (.dline 0) (zeroKernel 0) = .next t) ∧ (zeroKernel 0).kernelOn = false ∧
      (∀ y, Instr.near ≠ .dline y) ∧ Instr.encrow ≠ .near ∧ Instr.encrow ≠ .sreset :=
  ⟨⟨_, rfl⟩, ⟨_, rfl⟩, by decide +kernel, by simp, by decide, by decide⟩

/-- OutOnlyGrowsBetweenResets: ENCROW grows it. -/
theorem witness_out_grows :
    ∃ t, step (pending tile (commandLine .encrow)) = .next t ∧ t.out.length = 16 :=
  ⟨_, rfl, by decide +kernel⟩

/-- IdleEngineKeepsItsState. -/
theorem witness_idle : halted.events = [] := by decide +kernel

/-- EveryStepKeepsTheInvariant: a state that is not the reset state meets the invariant, with an error
latched, and steps. -/
theorem witness_invariant :
    (pending halted (commandLine .sreset)).Inv ∧ halted.err = true ∧
      ∃ t, step (pending halted (commandLine .sreset)) = .next t := by
  refine ⟨?_, by decide +kernel, ⟨_, rfl⟩⟩
  exact {
    gridWf := by decide +kernel
    palWf := by decide +kernel
    kerWf := by decide +kernel
    qinWf := by decide +kernel
    idxWf := by decide +kernel
    ctrlReserved := by decide +kernel
    fmtReserved := by decide +kernel
    kgeomReserved := by decide +kernel
    latchClear := by decide +kernel
    latchCode := fun _ => ⟨.bpp, by decide +kernel, by
      have h : decode (pending halted (commandLine .sreset)).ecmd = .ok .encrow := by decide +kernel
      simp [h]⟩
    outBound := by decide +kernel
    outWhole := by decide +kernel }

end Sys2Proof.Tests
end

section
/-! PROOFS. The decoder as the other proofs use it: the fields of a word as numbers, and that a word
that decodes is the encoding of its command (30_encoding.md R90, R96). -/

namespace Sys2Proof

theorem extractLsb'_toNat_div_mod (w : Word) (start len : Nat) :
    (w.extractLsb' start len).toNat = w.toNat / 2 ^ start % 2 ^ len := by
  rw [BitVec.extractLsb'_toNat, Nat.shiftRight_eq_div_pow]

theorem extractLsb'_zero_toNat (w : Word) (len : Nat) :
    (w.extractLsb' 0 len).toNat = w.toNat % 2 ^ len := by
  rw [extractLsb'_toNat_div_mod, Nat.pow_zero, Nat.div_one]

theorem opField_toNat (w : Word) : (opField w).toNat = w.toNat % 256 :=
  extractLsb'_zero_toNat w 8

theorem immField_toNat (w : Word) : (immField w).toNat = w.toNat / 256 % 65536 :=
  extractLsb'_toNat_div_mod w 8 16

theorem rsvField_toNat (w : Word) : (rsvField w).toNat = w.toNat / 16777216 :=
  (extractLsb'_toNat_div_mod w 24 8).trans (Nat.mod_eq_of_lt (Nat.div_lt_of_lt_mul w.isLt))

theorem encode_dline_toNat {y : Nat} (hy : y < 65536) :
    (encode (.dline y)).toNat = y * 256 + 1 := by
  have hor : y * 256 ||| 1 = y * 256 + 1 := by
    rw [← Nat.shiftLeft_eq y 8, Nat.shiftLeft_add_eq_or_of_lt (by decide)]
  have hword : y % 4294967296 = y := Nat.mod_eq_of_lt (by omega)
  have hfit : y * 256 % 4294967296 = y * 256 := Nat.mod_eq_of_lt (by omega)
  simp [encode, Nat.shiftLeft_eq, hword, hfit, hor]

/-- A word whose fields are `rsv = 0`, `imm` and `op`, as a number. -/
theorem toNat_of_rsvField_eq_zero {w : Word} (h : rsvField w = 0) :
    w.toNat = (immField w).toNat * 256 + (opField w).toNat := by
  have hrsv : w.toNat / 16777216 = 0 := by rw [← rsvField_toNat, h]; rfl
  rw [immField_toNat, opField_toNat]
  omega

/-- A word with no bit outside `op` is its `op`. -/
theorem toNat_of_immField_eq_zero {w : Word} (hrsv : rsvField w = 0) (himm : immField w = 0) :
    w.toNat = (opField w).toNat := by
  rw [toNat_of_rsvField_eq_zero hrsv, himm]
  exact Nat.zero_add _

/-- A word that decodes is the encoding of its command. -/
theorem encode_of_decode {w : Word} {i : Instr} (h : decode w = .ok i) : encode i = w := by
  apply BitVec.eq_of_toNat_eq
  unfold decode at h
  split_ifs at h with hrsv hline himm hnop hnear hencrow hsreset <;> cases h
  · rw [encode_dline_toNat (immField w).isLt, toNat_of_rsvField_eq_zero (not_not.1 hrsv), hline]
    rfl
  all_goals rw [toNat_of_immField_eq_zero (not_not.1 hrsv) (not_not.1 himm)]
  · rw [hnop]; rfl
  · rw [hnear]; rfl
  · rw [hencrow]; rfl
  · rw [hsreset]; rfl

/-- The only word of SRESET is 0x00000004. -/
theorem decode_sreset_iff {w : Word} : decode w = .ok .sreset ↔ w = 0x00000004 :=
  ⟨fun h => (encode_of_decode h).symm, fun h => by rw [h]; decide⟩

end Sys2Proof
end

section
/-! PROOFS. One step of the machine is one `engineEvent` of its hardware: the dispatch through `issue`
and `exec` and the pseudocode of 44_control.md R170, `execWord`, are the same function. -/

namespace Sys2Proof.Machine

/-- While an error is latched every command but SRESET is ignored (44_control.md R172). -/
theorem exec_halted {i : Instr} {s : State} (he : s.err = true) (hi : i ≠ .sreset) :
    exec i s = .next s := by
  cases i with
  | nop => rfl
  | dline y => rw [exec, execDline, dlineCommand, checkedCommand_halted he]
  | near => rw [exec, execNear, nearCommand, checkedCommand_halted he]
  | encrow => rw [exec, execEncrow, encrowCommand, checkedCommand_halted he]
  | sreset => exact absurd rfl hi

/-- With no error latched a legal word runs its command. -/
theorem exec_running {i : Instr} {w : Word} {s : State} (he : s.err = false)
    (hd : decode w = .ok i) :
    exec i s = .next { s with toEngine := execWord Config.reference w s.toEngine } := by
  rw [execWord, he, if_neg (by decide), hd]
  cases i <;> rfl

theorem execWord_halted {α : Type} (P : Params α) {w : Word} {e : Engine α} (he : e.err = true)
    (hw : w ≠ 0x00000004) : execWord P w e = e := by
  rw [execWord, if_pos he, if_neg hw]

theorem execWord_sreset {α : Type} (P : Params α) (e : Engine α) :
    execWord P 0x00000004 e = softReset e := by
  rw [execWord, if_pos rfl, decode_sreset_iff.2 rfl]
  cases e.err <;> rfl

theorem execWord_illegal {α : Type} (P : Params α) {w : Word} {e : Engine α} {why : Illegal}
    (he : e.err = false) (hd : decode w = .error why) :
    execWord P w e = raiseError .illcmd w e := by
  rw [execWord, he, if_neg (by decide), hd]

theorem illegalCommand_running {α : Type} {w : Word} {e : Engine α} (he : e.err = false) :
    illegalCommand w e = raiseError .illcmd w e :=
  checkedCommand_raise he rfl

theorem illegalCommand_halted {α : Type} {w : Word} {e : Engine α} (he : e.err = true) :
    illegalCommand w e = e :=
  checkedCommand_halted he

/-- A write of `w` to CMD does what R170 says of `w`. -/
theorem issue_eq (w : Word) (s : State) :
    issue w s = .next { s with toEngine := execWord Config.reference w s.toEngine } := by
  by_cases hw : w = 0x00000004
  · subst hw
    rw [issue, decode_sreset_iff.2 rfl, execWord_sreset]
    rfl
  cases he : s.err with
  | true =>
    rw [issue, execWord_halted _ he hw]
    cases hd : decode w with
    | ok i => exact exec_halted he fun hi => hw (decode_sreset_iff.1 (hi ▸ hd))
    | error why => simp only [illegalCommand_halted he]
  | false =>
    rw [issue]
    cases hd : decode w with
    | ok i => exact exec_running he hd
    | error why => simp only [illegalCommand_running he, execWord_illegal _ he hd]

/-- The machine after the event `ev`, with the events `rest` still to come. -/
def afterEvent (s : State) (ev : Event NUM) (rest : List (Event NUM)) : State where
  toEngine := (engineEvent Config.reference s.toEngine ev).1
  events := rest
  reply := (engineEvent Config.reference s.toEngine ev).2

/-- Every step with an event to come is that event on the hardware, whatever the event. -/
theorem step_cons {s : State} {ev : Event NUM} {rest : List (Event NUM)}
    (h : s.events = ev :: rest) : step s = .next (afterEvent s ev rest) := by
  by_cases hq : ∃ w, ev = .txn (.regWrite cmdNumber w)
  · obtain ⟨w, rfl⟩ := hq
    rw [step_command h, issue_eq]
    simp only [afterEvent, engineEvent, if_pos]
  · rw [step_quiet h fun w hw => hq ⟨w, hw⟩]
    rfl

/-- What one step can do: nothing when no event is to come, else the next event. -/
theorem step_cases {s t : State} (h : step s = .next t) :
    (s.events = [] ∧ t = s) ∨ ∃ ev rest, s.events = ev :: rest ∧ t = afterEvent s ev rest := by
  cases hs : s.events with
  | nil =>
    rw [step, takeEvent, hs] at h
    cases h
    exact .inl ⟨rfl, rfl⟩
  | cons ev rest =>
    rw [step_cons hs] at h
    cases h
    exact .inr ⟨ev, rest, rfl, rfl⟩

end Sys2Proof.Machine
end

section
/-! PROOFS. What one command word can do to the hardware, said once: ignore, soft reset, raise, or run
one of the three computing commands past its checks. -/

namespace Sys2Proof.Machine

variable {α : Type}

/-- The hardware states one command word `w` can lead to from `e` (44_control.md R170 to R174). -/
inductive WordEffect (P : Params α) (w : Word) (e : Engine α) : Engine α → Prop
  /-- NOP, or any word but that of SRESET while an error is latched. -/
  | ignored (h : decode w = .ok .nop ∨ (e.err = true ∧ w ≠ 0x00000004)) : WordEffect P w e e
  | softReset (hw : w = 0x00000004) : WordEffect P w e (softReset e)
  /-- An illegal word, or a legal one whose checks fail; the code tells which. -/
  | raised (c : ErrCode) (he : e.err = false)
      (hc : c = .illcmd ↔ ∃ why, decode w = .error why) : WordEffect P w e (raiseError c w e)
  | line (y : Nat) (he : e.err = false) (hd : decode w = .ok (.dline y))
      (hf : dlineFailing y e = none) : WordEffect P w e (dlineRun P y e)
  | near (he : e.err = false) (hd : decode w = .ok .near) (hf : nearFailing e = none) :
      WordEffect P w e (nearRun P e)
  | row (he : e.err = false) (hd : decode w = .ok .encrow) (hf : encrowFailing P e = none) :
      WordEffect P w e (encrowRun P e)

/-- A legal word's checked command raises or runs; its checks never give `E_ILLCMD`. -/
theorem wordEffect_checkedCommand {P : Params α} {w : Word} {i : Instr} {e : Engine α}
    {failing : Engine α → Option ErrCode} {run : Engine α → Engine α} (he : e.err = false)
    (hd : decode w = .ok i) (hcode : failing e ≠ some .illcmd)
    (hrun : failing e = none → WordEffect P w e (run e)) :
    WordEffect P w e (checkedCommand (encode i) failing run e) := by
  rw [encode_of_decode hd]
  cases hf : failing e with
  | none =>
    rw [checkedCommand_run he hf]
    exact hrun hf
  | some c =>
    rw [checkedCommand_raise he hf]
    exact .raised c he
      ⟨fun hill => absurd (hill ▸ hf) hcode, fun ⟨_, hill⟩ => by rw [hd] at hill; cases hill⟩

theorem dlineFailing_ne_illcmd (y : Nat) (e : Engine α) : dlineFailing y e ≠ some .illcmd := by
  unfold dlineFailing
  split_ifs <;> simp

theorem nearFailing_ne_illcmd (e : Engine α) : nearFailing e ≠ some .illcmd := by
  unfold nearFailing
  split_ifs <;> simp

theorem encrowFailing_ne_illcmd (P : Params α) (e : Engine α) :
    encrowFailing P e ≠ some .illcmd := by
  unfold encrowFailing
  split_ifs <;> simp

/-- Every word, in every state, has one of these effects. -/
theorem execWord_effect (P : Params α) (w : Word) (e : Engine α) :
    WordEffect P w e (execWord P w e) := by
  unfold execWord
  split_ifs with he hw
  · exact .softReset hw
  · exact .ignored (.inr ⟨he, hw⟩)
  · have he := Bool.eq_false_iff.2 he
    split
    case _ why hd => exact .raised .illcmd he ⟨fun _ => ⟨why, hd⟩, fun _ => rfl⟩
    case _ hd => exact .ignored (.inl hd)
    case _ y hd =>
      exact wordEffect_checkedCommand he hd (dlineFailing_ne_illcmd y e) (.line y he hd)
    case _ hd => exact wordEffect_checkedCommand he hd (nearFailing_ne_illcmd e) (.near he hd)
    case _ hd => exact wordEffect_checkedCommand he hd (encrowFailing_ne_illcmd P e) (.row he hd)
    case _ hd => exact .softReset (decode_sreset_iff.1 hd)

/-- The capacity check of ENCROW (43_bitplane.md R156). -/
theorem outCap_of_encrowFailing_none {P : Params α} {e : Engine α} (h : encrowFailing P e = none) :
    e.out.length + rowNeed e ≤ P.outCap.val := by
  unfold encrowFailing at h
  split_ifs at h with _ _ hcap
  exact Nat.not_lt.1 hcap

end Sys2Proof.Machine
end

section
/-! PROOFS. Every event keeps the invariant, in every build: one lemma for each operation on the
hardware. -/

namespace Sys2Proof.Machine

variable {α : Type} {P : Params α} {e : Engine α}

theorem EngineInv.memoriesWf (h : EngineInv P e) : MemoriesWf e where
  grid := h.gridWf
  pal := h.palWf
  ker := h.kerWf
  qin := h.qinWf
  idx := h.idxWf

/-- Outside the memories the invariant speaks of the registers and OUT only. -/
theorem EngineInv.of_sameButMemories {e' : Engine α} (h : EngineInv P e) (hm : MemoriesWf e')
    (hs : e' = { e with
      grid := e'.grid, pal := e'.pal, ker := e'.ker, qin := e'.qin, idx := e'.idx }) :
    EngineInv P e' := by
  obtain ⟨hgrid, hpal, hker, hqin, hidx⟩ := hm
  rw [hs]
  exact { h with gridWf := hgrid, palWf := hpal, kerWf := hker, qinWf := hqin, idxWf := hidx }

theorem engineInv_afterReset (P : Params α) (k : Nat) : EngineInv P (Engine.afterReset α k) where
  gridWf := rfl
  palWf := rfl
  kerWf := rfl
  qinWf := rfl
  idxWf := rfl
  ctrlReserved := BitVec.zero_and
  fmtReserved := BitVec.zero_and
  kgeomReserved := BitVec.zero_and
  latchClear _ := ⟨rfl, rfl⟩
  latchCode herr := nomatch herr
  outBound := Nat.zero_le _
  outWhole := Nat.dvd_zero 16

theorem engineInv_softReset (h : EngineInv P e) : EngineInv P (softReset e) :=
  { h with
    latchClear := fun _ => ⟨rfl, rfl⟩
    latchCode := nofun
    outBound := Nat.zero_le _
    outWhole := Nat.dvd_zero 16 }

theorem engineInv_raiseError (h : EngineInv P e) {c : ErrCode} {w : Word}
    (hc : c = .illcmd ↔ ∃ why, decode w = .error why) : EngineInv P (raiseError c w e) :=
  { h with
    latchClear := nofun
    latchCode := fun _ => ⟨c, rfl, hc⟩ }

theorem engineInv_dlineRun (h : EngineInv P e) (y : Nat) : EngineInv P (dlineRun P y e) := by
  have hs := sameButGridIdx_dlineRun P y e
  refine h.of_sameButMemories (memoriesWf_dlineRun P h.memoriesWf y) ?_
  rw [hs.pal_eq, hs.ker_eq, hs.qin_eq]
  exact hs

theorem engineInv_nearRun (h : EngineInv P e) : EngineInv P (nearRun P e) := { h with }

/-- A tile row is a whole number of plane-pair rows (43_bitplane.md R156, R160). -/
theorem rowNeed_dvd (e : Engine α) : 16 ∣ rowNeed e := by
  rw [rowNeed, Nat.mul_assoc]
  exact Nat.dvd_mul_right ..

theorem engineInv_encrowRun (h : EngineInv P e) (hf : encrowFailing P e = none) :
    EngineInv P (encrowRun P e) := by
  have hlen : (encrowRun P e).out.length = e.out.length + rowNeed e := by
    rw [encrowRun, appendOut_out, List.length_append, length_rowBytes]
  exact { h with
    outBound := hlen ▸ outCap_of_encrowFailing_none hf
    outWhole := hlen ▸ Nat.dvd_add h.outWhole (rowNeed_dvd e) }

theorem engineInv_execWord (h : EngineInv P e) (w : Word) : EngineInv P (execWord P w e) := by
  have heffect := execWord_effect P w e
  generalize execWord P w e = e' at heffect
  cases heffect with
  | ignored => exact h
  | softReset => exact engineInv_softReset h
  | raised c he hc => exact engineInv_raiseError h hc
  | line y => exact engineInv_dlineRun h y
  | near => exact engineInv_nearRun h
  | row he hd hf => exact engineInv_encrowRun h hf

/-- Bits outside a mask are 0 after masking. -/
theorem and_mask_reserved (w mask : Word) : w &&& mask &&& ~~~mask = 0 := by
  rw [BitVec.and_assoc, BitVec.and_not_self]
  exact BitVec.and_zero

theorem engineInv_regWrite (h : EngineInv P e) (n w : Word) : EngineInv P (regWrite n w e) := by
  unfold regWrite
  split_ifs
  · exact { h with ctrlReserved := and_mask_reserved w ctrlMask }
  · exact { h with }
  · exact { h with fmtReserved := and_mask_reserved w fmtMask }
  · exact { h with kgeomReserved := and_mask_reserved w kgeomMask }
  · exact h

theorem engineInv_memWrite (h : EngineInv P e) (st : Store α) : EngineInv P (memWrite e st) := by
  refine h.of_sameButMemories (memoriesWf_memWrite h.memoriesWf st) ?_
  rcases st with ⟨⟨⟩ | ⟨⟩ | ⟨⟩ | ⟨⟩, v⟩ | ⟨⟨⟩ | ⟨⟩, v⟩ <;> rfl

theorem engineInv_engineEvent (h : EngineInv P e) (ev : Event α) :
    EngineInv P (engineEvent P e ev).1 := by
  rcases ev with (n | ⟨n, w⟩ | a | st) | _
  · exact h
  · show EngineInv P (if n = cmdNumber then execWord P w e else regWrite n w e)
    split_ifs
    · exact engineInv_execWord h w
    · exact engineInv_regWrite h n w
  · exact h
  · exact engineInv_memWrite h st
  · exact engineInv_afterReset P _

/-- Settles O51: a step is an event on the hardware or nothing, and every event keeps the invariant. -/
theorem everyStepKeepsTheInvariant : Obligations.EveryStepKeepsTheInvariant := by
  intro s t hs h
  obtain ⟨-, rfl⟩ | ⟨ev, rest, -, rfl⟩ := step_cases h
  · exact hs
  · exact engineInv_engineEvent hs ev

/-- Settles O50: the registers are 0, the memories list nothing and OUT is empty. -/
theorem invariantHoldsAtReset : Obligations.InvariantHoldsAtReset :=
  engineInv_afterReset Config.reference 0

end Sys2Proof.Machine
end

section
/-! PROOFS. OUT under every event (10_state.md R40): only ENCROW appends to it, only the two resets
empty it. -/

namespace Sys2Proof.Machine

variable {α : Type}

@[simp] theorem regWrite_out (n w : Word) (e : Engine α) : (regWrite n w e).out = e.out := by
  unfold regWrite
  split_ifs <;> rfl

@[simp] theorem memWrite_out (e : Engine α) (st : Store α) : (memWrite e st).out = e.out := by
  rcases st with ⟨⟨⟩ | ⟨⟩ | ⟨⟩ | ⟨⟩, v⟩ | ⟨⟨⟩ | ⟨⟩, v⟩ <;> rfl

/-- A command word extends OUT at its end, or is that of SRESET. -/
theorem execWord_out (P : Params α) (w : Word) (e : Engine α) :
    e.out <+: (execWord P w e).out ∨ (w = 0x00000004 ∧ (execWord P w e).out = []) := by
  have heffect := execWord_effect P w e
  generalize execWord P w e = e' at heffect ⊢
  cases heffect with
  | softReset hw => exact .inr ⟨hw, rfl⟩
  | row => exact .inl (List.prefix_append e.out (rowBytes P e))
  | line y => exact .inl (by rw [(sameButGridIdx_dlineRun P y e).out_eq])
  | ignored | raised | near => exact .inl (List.prefix_refl e.out)

/-- An event extends OUT at its end, or it is one of the two resets and leaves OUT empty. -/
theorem engineEvent_out (P : Params α) (e : Engine α) (ev : Event α) :
    e.out <+: (engineEvent P e ev).1.out ∨
      ((engineEvent P e ev).1.out = [] ∧
        (ev = .txn (.regWrite cmdNumber 0x00000004) ∨ ev = .hardReset)) := by
  rcases ev with (n | ⟨n, w⟩ | a | st) | _
  · exact .inl (List.prefix_refl e.out)
  · rw [engineEvent]
    split_ifs with hn
    · obtain hpre | ⟨rfl, hout⟩ := execWord_out P w e
      · exact .inl hpre
      · exact .inr ⟨hout, .inl (by rw [hn])⟩
    · exact .inl (by rw [regWrite_out])
  · exact .inl (List.prefix_refl e.out)
  · exact .inl (by rw [engineEvent, memWrite_out])
  · exact .inr ⟨rfl, .inr rfl⟩

/-- Settles O46: the step's event says which of the two holds. -/
theorem outOnlyGrowsBetweenResets : Obligations.OutOnlyGrowsBetweenResets := by
  intro s t h
  obtain ⟨-, rfl⟩ | ⟨ev, rest, hs, rfl⟩ := step_cases h
  · exact .inl (List.prefix_refl t.out)
  · obtain hpre | ⟨hout, rfl | rfl⟩ := engineEvent_out Config.reference s.toEngine ev
    · exact .inl hpre
    · exact .inr ⟨hout, .inl ⟨rest, hs⟩⟩
    · exact .inr ⟨hout, .inr ⟨rest, hs⟩⟩

end Sys2Proof.Machine
end

section
/-! PROOFS. The register fields as numbers (10_state.md R25 to R29), and what the registers answer to
reads and take from writes (R22, R23). -/

namespace Sys2Proof.Machine

variable {α : Type}

/-! ### bits and fields of the registers -/

theorem getLsbD_iff_div_mod (w : Word) (i : Nat) :
    w.getLsbD i = true ↔ w.toNat / 2 ^ i % 2 = 1 := by
  rw [← BitVec.testBit_toNat, Nat.testBit_eq_decide_div_mod_eq, decide_eq_true_iff]

/-- Settles O37: each field is a division and a remainder of its register. -/
theorem configurationFieldsStandAtTheirBits : Obligations.ConfigurationFieldsStandAtTheirBits := by
  intro α e
  have hken : e.kernelOn = true ↔ e.ctrl.toNat % 2 = 1 := by
    rw [Engine.kernelOn, getLsbD_iff_div_mod, Nat.pow_zero, Nat.div_one]
  have hheight : e.height = e.dim.toNat / 65536 :=
    (extractLsb'_toNat_div_mod e.dim 16 16).trans
      (Nat.mod_eq_of_lt (Nat.div_lt_of_lt_mul e.dim.isLt))
  exact ⟨hken, getLsbD_iff_div_mod e.ctrl 1,
    extractLsb'_zero_toNat e.dim 16, hheight,
    extractLsb'_zero_toNat e.fmt 4, congrArg (· + 1) (extractLsb'_toNat_div_mod e.fmt 4 2),
    congrArg (· + 1) (extractLsb'_zero_toNat e.kgeom 3),
    congrArg (· + 1) (extractLsb'_toNat_div_mod e.kgeom 4 3),
    extractLsb'_toNat_div_mod e.kgeom 8 3⟩

/-! ### reads -/

/-- Three bits at the bottom of a word, by their weights. -/
theorem threeBits_toNat (b2 b1 b0 : Bool) :
    (0#29 ++ BitVec.ofBool b2 ++ BitVec.ofBool b1 ++ BitVec.ofBool b0).toNat =
      (if b0 then 1 else 0) + (if b1 then 2 else 0) + (if b2 then 4 else 0) := by
  decide +revert

/-- STATUS as a number (10_state.md R29). -/
theorem status_toNat (e : Engine α) :
    e.status.toNat = (if e.err then 1 else 0) + (if e.width % 8 = 0 then 0 else 2) +
      (if e.height % 8 = 0 then 0 else 4) := by
  rw [Engine.status, threeBits_toNat]
  simp only [Engine.wtrunc, Engine.htrunc, bne_iff_ne, ite_not]

theorem zeroExtend_toNat (b : Byte) : (b.zeroExtend 32).toNat = b.toNat :=
  BitVec.toNat_setWidth_of_le (by decide : 8 ≤ 32)

/-- All bits of DIM are assigned (10_state.md R26). -/
theorem and_dimMask (w : Word) : w &&& dimMask = w := BitVec.and_allOnes

/-- The numbers above that of OUTLEN are reserved (10_state.md R22). -/
theorem regRead_reserved (e : Engine α) {n : Word} (hn : 0x0A < n) : regRead e n = 0 := by
  have hne : ∀ m : Word, m ≤ 0x0A → n ≠ m := fun m hm h => by
    subst h
    exact absurd hn (BitVec.not_lt.2 hm)
  unfold regRead
  iterate 11 rw [if_neg (hne _ (by decide))]

/-- The step on a register read. -/
theorem step_regRead {s : State} {n : Word} {rest : List (Event NUM)}
    (h : s.events = .txn (.regRead n) :: rest) :
    step s = .next { s with events := rest, reply := .word (regRead s.toEngine n) } :=
  step_cons h

/-- Settles O38: the step returns `regRead`, whose branches are the numbers of the map. -/
theorem registersReadAsTheMapSays : Obligations.RegistersReadAsTheMapSays := by
  intro s n rest h
  refine ⟨regRead s.toEngine n, step_regRead h, ?_, ?_, ?_, ?_, ?_, ?_, ?_, ?_, ?_, ?_, ?_,
    regRead_reserved s.toEngine⟩ <;> rintro rfl
  · rfl
  · rfl
  · exact and_dimMask s.dim
  · rfl
  · rfl
  · exact status_toNat s.toEngine
  · exact zeroExtend_toNat s.ecode
  · rfl
  · rfl
  · exact zeroExtend_toNat s.qidx
  · rfl

/-! ### writes -/

/-- The step on a register write, to any number but that of CMD. -/
theorem step_regWrite {s : State} {n w : Word} {rest : List (Event NUM)}
    (h : s.events = .txn (.regWrite n w) :: rest) (hn : n ≠ cmdNumber) :
    step s =
      .next { s with toEngine := regWrite n w s.toEngine, events := rest, reply := .none } := by
  rw [step_cons h]
  simp only [afterEvent, engineEvent, if_neg hn]

/-- A number that is not one of the four RW registers takes nothing. -/
theorem regWrite_other (e : Engine α) {n : Word} (w : Word) (h1 : n ≠ 0x01) (h2 : n ≠ 0x02)
    (h3 : n ≠ 0x03) (h4 : n ≠ 0x04) : regWrite n w e = e := by
  rw [regWrite, if_neg h1, if_neg h2, if_neg h3, if_neg h4]

/-- Masking twice is masking once. -/
theorem and_mask_and_mask (w mask : Word) : w &&& mask &&& mask = w &&& mask := by
  rw [BitVec.and_assoc, BitVec.and_self]

/-- Settles O39: the write branches of `regWrite`, and the masks of `regRead` on what they stored. -/
theorem registerWritesTakeAssignedBits : Obligations.RegisterWritesTakeAssignedBits := by
  refine ⟨fun s n w rest h hn => ?_, fun s n rest h => ?_⟩
  · refine ⟨regWrite n w s.toEngine, step_regWrite h hn, ?_, ?_, ?_, ?_, regWrite_other _ w⟩ <;>
      rintro rfl
    · exact ⟨rfl, and_mask_and_mask w ctrlMask⟩
    · refine ⟨?_, ?_⟩
      · show { s.toEngine with dim := w &&& dimMask } = _
        rw [and_dimMask]
      · show w &&& dimMask &&& dimMask = w
        rw [and_dimMask, and_dimMask]
    · exact ⟨rfl, and_mask_and_mask w fmtMask⟩
    · exact ⟨rfl, and_mask_and_mask w kgeomMask⟩
  · exact ⟨regRead s.toEngine n, step_regRead h, regRead_reserved s.toEngine⟩

end Sys2Proof.Machine
end

section
/-! PROOFS. The reset state (10_state.md R43): what its registers read and what its commands raise. -/

namespace Sys2Proof.Machine

variable {α : Type}

/-- After a hardware reset every register but ID reads 0, whatever resets there have been. -/
theorem regRead_afterReset (k : Nat) (n : Word) :
    regRead (Engine.afterReset α k) n = if n = 0x00 then 0x44424501 else 0 := by
  have hstatus : (Engine.afterReset α k).status = 0 := by
    simp [Engine.status, Engine.wtrunc, Engine.htrunc, Engine.width, Engine.height,
      Engine.afterReset]
  simp only [regRead, hstatus]
  simp [Engine.afterReset, idConstant]

/-- Settles O42. OUT is empty, so every byte of it reads 0. -/
theorem resetRegistersReadZeroButId : Obligations.ResetRegistersReadZeroButId :=
  ⟨regRead_afterReset 0, rfl, rfl, fun _ => rfl⟩

/-- BPP is 0 after a hardware reset, and 0 is no legal depth (10_state.md R27, R43). -/
theorem bppLegal_afterReset (k : Nat) : (Engine.afterReset α k).bppLegal = false := rfl

section IllegalDepth

/-! The depth is the first check of each computing command (60_exceptions.md R188, R189). -/

variable {e : Engine α} (h : e.bppLegal = false)
include h

theorem dlineFailing_of_bppLegal_false (y : Nat) : dlineFailing y e = some .bpp := by
  rw [dlineFailing, h]
  rfl

theorem nearFailing_of_bppLegal_false : nearFailing e = some .bpp := by
  rw [nearFailing, h]
  rfl

theorem encrowFailing_of_bppLegal_false (P : Params α) : encrowFailing P e = some .bpp := by
  rw [encrowFailing, h]
  rfl

end IllegalDepth

/-- A checked command whose checks fail with `c`, on the machine. -/
theorem next_checkedCommand_raise {s : State} {w : Word} {c : ErrCode}
    {failing : Engine NUM → Option ErrCode} {run : Engine NUM → Engine NUM} (he : s.err = false)
    (hf : failing s.toEngine = some c) :
    (.next { s with toEngine := checkedCommand w failing run s.toEngine } :
        Host.Outcome State Fault Refusal) =
      .next { s with err := true, ecode := c.code, ecmd := w } := by
  rw [checkedCommand_raise he hf]
  rfl

/-- Settles O44: the depth at reset is 0, and the depth is the first check of each of the three. -/
theorem unconfiguredEngineFailsFast : Obligations.UnconfiguredEngineFailsFast := by
  have hl : State.reset.bppLegal = false := bppLegal_afterReset 0
  rintro i (⟨y, rfl⟩ | rfl | rfl)
  · exact next_checkedCommand_raise rfl (dlineFailing_of_bppLegal_false hl y)
  · exact next_checkedCommand_raise rfl (nearFailing_of_bppLegal_false hl)
  · exact next_checkedCommand_raise rfl (encrowFailing_of_bppLegal_false hl Config.reference)

end Sys2Proof.Machine
end

section
/-! PROOFS. The memory ports (20_memory.md R63, R64): what a MemRead returns of an element written,
and what a MemWrite replaces and leaves alone. -/

namespace Sys2Proof.Machine

variable {α β : Type}

/-! ### reads -/

/-- An element that has been written reads as what was written, whatever the reset content. -/
theorem Mem.getD_read {m : Mem β} {k : Nat} {v : β} (d : β) (h : m.read k = some v) :
    (m.read k).getD d = v := by
  rw [h, Option.getD_some]

/-- The step on a memory read. -/
theorem step_memRead {s : State} {a : Addr} {rest : List (Event NUM)}
    (h : s.events = .txn (.memRead a) :: rest) :
    step s = .next { s with events := rest, reply := memRead Config.reference s.toEngine a } :=
  step_cons h

/-- Settles O41: a written element is listed in its memory, and OUT is a list with default 0. -/
theorem memReadReturnsTheElement : Obligations.MemReadReturnsTheElement := by
  refine ⟨fun s a rest => step_memRead, fun α P e => ⟨?grid, ?pal, ?ker, ?qin, ?idx, ?out⟩⟩
  case grid => exact fun y x c v h => congrArg Reply.num (Mem.getD_read _ h)
  case pal => exact fun i c v h => congrArg Reply.num (Mem.getD_read _ h)
  case ker => exact fun r k v h => congrArg Reply.num (Mem.getD_read _ h)
  case qin => exact fun c v h => congrArg Reply.num (Mem.getD_read _ h)
  case idx => exact fun s x v h => congrArg Reply.byte (Mem.getD_read _ h)
  case out =>
    exact fun b => ⟨fun h => congrArg Reply.byte (List.getD_eq_getElem e.out 0 h),
      fun h => congrArg Reply.byte (List.getD_eq_default e.out 0 h)⟩

/-! ### writes -/

/-- The step on a memory write. -/
theorem step_memWrite {s : State} {st : Store NUM} {rest : List (Event NUM)}
    (h : s.events = .txn (.memWrite st) :: rest) :
    step s =
      .next { s with toEngine := memWrite s.toEngine st, events := rest, reply := .none } :=
  step_cons h

/-- Outside the five memories that the port can write, a write changes nothing. -/
theorem memWrite_frame (e : Engine α) (st : Store α) :
    { memWrite e st with
      grid := e.grid, pal := e.pal, ker := e.ker, qin := e.qin, idx := e.idx } = e := by
  rcases st with ⟨⟨⟩ | ⟨⟩ | ⟨⟩ | ⟨⟩, v⟩ | ⟨⟨⟩ | ⟨⟩, v⟩ <;> rfl

/-- A write leaves every register as it was: none of them is a memory. -/
@[simp] theorem regRead_memWrite (e : Engine α) (st : Store α) (n : Word) :
    regRead (memWrite e st) n = regRead e n := by
  calc regRead (memWrite e st) n
      = regRead { memWrite e st with
          grid := e.grid, pal := e.pal, ker := e.ker, qin := e.qin, idx := e.idx } n := rfl
    _ = regRead e n := by rw [memWrite_frame]

/-- A memory after a write, read at another position through the reset content. -/
theorem Mem.getD_read_write_other (m : Mem β) {k j : Nat} (v d : β) (h : j ≠ k) :
    ((m.write k v).read j).getD d = (m.read j).getD d := by
  rw [Mem.read_write_other m v h]

@[simp] theorem numRead_memWrite_same (P : Params α) (e : Engine α) (a : NumAddr) (v : α) :
    numRead P (memWrite e (.num a v)) a = v := by
  cases a <;> exact Mem.getD_read _ (Mem.read_write_same ..)

/-- Elements of two spaces are in two memories; two of one space are at two positions. -/
theorem numRead_memWrite_other (P : Params α) (e : Engine α) {a b : NumAddr} (v : α) (h : a ≠ b) :
    numRead P (memWrite e (.num b v)) a = numRead P e a := by
  cases a <;> cases b
  case grid.grid y x c y' x' c' =>
    refine Mem.getD_read_write_other _ _ _ fun hkey => h ?_
    obtain ⟨hy, hx, hc⟩ := gridKey_inj x.isLt c.isLt x'.isLt c'.isLt hkey
    rw [Fin.ext hy, Fin.ext hx, Fin.ext hc]
  case pal.pal i c i' c' =>
    refine Mem.getD_read_write_other _ _ _ fun hkey => h ?_
    obtain ⟨hi, hc⟩ := palKey_inj c.isLt c'.isLt hkey
    rw [Fin.ext hi, Fin.ext hc]
  case ker.ker r k r' k' =>
    refine Mem.getD_read_write_other _ _ _ fun hkey => h ?_
    obtain ⟨hr, hk⟩ := kerKey_inj k.isLt k'.isLt hkey
    rw [Fin.ext hr, Fin.ext hk]
  case qin.qin c c' =>
    refine Mem.getD_read_write_other _ _ _ fun hkey => h ?_
    rw [Fin.ext hkey]
  all_goals rfl

/-- A write to a `NUM` element touches neither IDX nor OUT. -/
@[simp] theorem byteRead_memWrite_num (P : Params α) (e : Engine α) (b : NumAddr) (v : α) :
    byteRead P (memWrite e (.num b v)) = byteRead P e := by
  cases b <;> rfl

/-- A write to IDX touches no `NUM` element. -/
@[simp] theorem numRead_memWrite_idx (P : Params α) (e : Engine α) (s : Fin 8) (x : Fin 65536)
    (v : Byte) : numRead P (memWrite e (.byte (.idx s x) v)) = numRead P e := rfl

theorem byteRead_memWrite_idx_same (P : Params α) (e : Engine α) (s : Fin 8) (x : Fin 65536)
    (v : Byte) : byteRead P (memWrite e (.byte (.idx s x) v)) (.idx s x) = v :=
  idxAt_setIdx_same P e s x v

theorem byteRead_memWrite_idx_other (P : Params α) (e : Engine α) {s : Fin 8} {x : Fin 65536}
    {a : ByteAddr} (v : Byte) (h : a ≠ .idx s x) :
    byteRead P (memWrite e (.byte (.idx s x) v)) a = byteRead P e a := by
  cases a with
  | idx s' x' =>
    refine idxAt_setIdx_other P e v fun hkey => h ?_
    obtain ⟨hs, hx⟩ := idxKey_inj x'.isLt x.isLt hkey
    rw [Fin.ext hs, Fin.ext hx]
  | out b => rfl

/-- The read port after a write to a `NUM` element. -/
theorem memRead_num_memWrite_num (P : Params α) (e : Engine α) (a b : NumAddr) (v : α) :
    memRead P (memWrite e (.num b v)) (.num a) =
      if a = b then .num v else memRead P e (.num a) := by
  split_ifs with h
  · subst h
    exact congrArg Reply.num (numRead_memWrite_same P e a v)
  · exact congrArg Reply.num (numRead_memWrite_other P e v h)

/-- The read port after a write to an element of IDX. -/
theorem memRead_memWrite_idx (P : Params α) (e : Engine α) (s : Fin 8) (x : Fin 65536) (v : Byte)
    (a : Addr) :
    memRead P (memWrite e (.byte (.idx s x) v)) a =
      if a = .byte (.idx s x) then .byte v else memRead P e a := by
  split_ifs with h
  · subst h
    exact congrArg Reply.byte (byteRead_memWrite_idx_same P e s x v)
  · cases a with
    | num a => rfl
    | byte a =>
      exact congrArg Reply.byte (byteRead_memWrite_idx_other P e v fun ha => h (congrArg _ ha))

/-- Settles O40: the step is `memWrite`, and the read port tells each element from that written. -/
theorem memWriteReplacesOneElement : Obligations.MemWriteReplacesOneElement :=
  ⟨fun _ _ _ => step_memWrite, fun _ P e =>
    ⟨fun b v a => memRead_num_memWrite_num P e a b v,
      fun b v a => congrArg Reply.byte (congrFun (byteRead_memWrite_num P e b v) a),
      memRead_memWrite_idx P e, fun _ _ => rfl, regRead_memWrite e, memWrite_frame e⟩⟩

end Sys2Proof.Machine
end

section
/-! PROOFS. The numbers of the spaces (20_memory.md R60, R68): a space id and coordinates name at
most one address, and do so exactly when each coordinate is in its range. -/

namespace Sys2Proof.Machine

theorem spaceOfId_eq_some_iff {n : Nat} {sp : Space} : spaceOfId n = some sp ↔ spaceId sp = n :=
  ⟨spaceId_of_spaceOfId, fun h => h ▸ spaceOfId_spaceId sp⟩

theorem spaceOfId_eq_none_iff : ∀ {n : Nat}, spaceOfId n = none ↔ 5 < n
  | 0 | 1 | 2 | 3 | 4 | 5 => by decide
  | n + 6 => iff_of_true rfl (Nat.lt_add_left n (by decide))

/-- The coordinates of an address name it in its space. -/
theorem addrIn_addrCoords (a : Addr) : addrIn (addrSpace a) (addrCoords a) = some a := by
  rcases a with (⟨⟩ | ⟨⟩ | ⟨⟩ | ⟨⟩) | (⟨⟩ | ⟨⟩) <;>
    simp [addrSpace, addrCoords, addrIn, gridAddr, palAddr, kerAddr, qinAddr, idxAddr, outAddr,
      coord_val]

/-- The address that coordinates name in a space has that space and these coordinates. -/
theorem addrIn_sound {sp : Space} {cs : List Nat} {a : Addr} (h : addrIn sp cs = some a) :
    addrSpace a = sp ∧ addrCoords a = cs := by
  cases sp <;>
    simp only [addrIn, gridAddr, palAddr, kerAddr, idxAddr, qinAddr, outAddr] at h <;>
    split at h <;>
    simp only [Option.bind_eq_some_iff, Option.map_eq_some_iff, coord_eq_some, reduceCtorEq] at h
  -- GRID; then PAL, KER and IDX; then QIN and OUT
  · obtain ⟨y, rfl, x, rfl, c, rfl, rfl⟩ := h
    exact ⟨rfl, rfl⟩
  iterate 3
    obtain ⟨i, rfl, j, rfl, rfl⟩ := h
    exact ⟨rfl, rfl⟩
  iterate 2
    obtain ⟨i, rfl, rfl⟩ := h
    exact ⟨rfl, rfl⟩

theorem portAddr_eq_some_iff {n : Nat} {cs : List Nat} {a : Addr} :
    portAddr n cs = some a ↔ spaceId (addrSpace a) = n ∧ addrCoords a = cs := by
  rw [portAddr, Option.bind_eq_some_iff]
  constructor
  · rintro ⟨sp, hsp, ha⟩
    obtain ⟨rfl, hcs⟩ := addrIn_sound ha
    exact ⟨spaceId_of_spaceOfId hsp, hcs⟩
  · rintro ⟨rfl, rfl⟩
    exact ⟨addrSpace a, spaceOfId_spaceId _, addrIn_addrCoords a⟩

/-- A coordinate that is looked at first has to be in its range. -/
theorem isSome_bind_coord {β : Type} {n v : Nat} {f : Fin n → Option β} :
    ((coord n v).bind f).isSome = true ↔ ∃ h : v < n, (f ⟨v, h⟩).isSome = true := by
  unfold coord
  split_ifs with h <;> simp [h]

/-- The last coordinate has to be in its range, and nothing else. -/
theorem isSome_map_coord {β : Type} {n v : Nat} {f : Fin n → β} :
    ((coord n v).map f).isSome = true ↔ v < n := by
  unfold coord
  split_ifs with h <;> simp [h]

/-- A coordinate and then the last one. -/
theorem isSome_bind_map_coord {β : Type} {m n v w : Nat} {f : Fin m → Fin n → β} :
    ((coord m v).bind fun i => (coord n w).map (f i)).isSome = true ↔ v < m ∧ w < n := by
  simp only [isSome_bind_coord, isSome_map_coord, exists_prop]

/-- Settles O52: the two tables of ids are inverse, and so are the coordinates of an address. -/
theorem spaceIdsAndCoordinatesNameAddresses : Obligations.SpaceIdsAndCoordinatesNameAddresses := by
  refine ⟨⟨rfl, rfl, rfl, rfl, rfl, rfl⟩, fun _ _ => spaceOfId_eq_some_iff,
    fun _ => spaceOfId_eq_none_iff, fun _ _ _ => portAddr_eq_some_iff, fun y x c => ?grid,
    fun _ _ => isSome_bind_map_coord, fun _ _ => isSome_bind_map_coord,
    fun _ _ => isSome_bind_map_coord, fun _ => isSome_map_coord, fun _ => isSome_map_coord⟩
  case grid =>
    exact isSome_bind_coord.trans (by simp only [isSome_bind_map_coord, exists_prop])

end Sys2Proof.Machine
end

section
/-! PROOFS. Which command may write which state (20_memory.md R76): what one command can do to the
hardware, said once, and the summary read off it. -/

namespace Sys2Proof.Machine

variable {α : Type}

/-- The hardware states the command `i` can lead to from `e`, whatever its line index. -/
inductive CommandEffect (P : Params α) (i : Instr) (e : Engine α) : Engine α → Prop
  /-- NOP, or a checked command while an error is latched. -/
  | kept : CommandEffect P i e e
  /-- A checked command whose checks fail. -/
  | raised (c : ErrCode) : CommandEffect P i e (raiseError c (encode i) e)
  | cleared (hi : i = .sreset) : CommandEffect P i e (softReset e)
  | line (y : Nat) (hi : i = .dline y) : CommandEffect P i e (dlineRun P y e)
  | near (hi : i = .near) : CommandEffect P i e (nearRun P e)
  | row (hi : i = .encrow) : CommandEffect P i e (encrowRun P e)

theorem commandEffect_checkedCommand {P : Params α} {i : Instr} {e : Engine α}
    {failing : Engine α → Option ErrCode} {run : Engine α → Engine α}
    (hrun : CommandEffect P i e (run e)) :
    CommandEffect P i e (checkedCommand (encode i) failing run e) := by
  obtain ⟨-, h⟩ | ⟨-, c, -, h⟩ | ⟨-, -, h⟩ :=
      checkedCommand_cases (w := encode i) (failing := failing) (run := run) (e := e) <;> rw [h]
  · exact .kept
  · exact .raised c
  · exact hrun

/-- A command changes the hardware only, by one of these effects. -/
theorem exec_cases {i : Instr} {s t : State} (h : exec i s = .next t) :
    ∃ e, t = { s with toEngine := e } ∧ CommandEffect Config.reference i s.toEngine e := by
  cases i <;> cases h
  case nop => exact ⟨_, rfl, .kept⟩
  case dline y => exact ⟨_, rfl, commandEffect_checkedCommand (.line y rfl)⟩
  case near => exact ⟨_, rfl, commandEffect_checkedCommand (.near rfl)⟩
  case encrow => exact ⟨_, rfl, commandEffect_checkedCommand (.row rfl)⟩
  case sreset => exact ⟨_, rfl, .cleared rfl⟩

/-- Without a kernel a line leaves GRID alone (42_dither.md R137). -/
theorem dlineRun_grid_of_kernelOn_false (P : Params α) {e : Engine α} (y : Nat)
    (h : e.kernelOn = false) : (dlineRun P y e).grid = e.grid := by
  rw [dlineRun, h, if_neg (by decide), plainLine_grid]

/-- Settles O45: each effect, by the fields it leaves alone and the command it belongs to. -/
theorem commandsWriteOnlyWhatTheSummarySays : Obligations.CommandsWriteOnlyWhatTheSummarySays := by
  intro i s t h
  obtain ⟨e, rfl, heffect⟩ := exec_cases h
  cases heffect with
  | kept => simp
  | raised c => simp
  | cleared hi => simp [hi]
  | near hi => simp [hi]
  | row hi => simp [hi, encrowRun]
  | line y hi =>
    have hs := sameButGridIdx_dlineRun Config.reference y s.toEngine
    have hnot : ¬∀ y', i ≠ .dline y' := fun hne => hne y hi
    exact ⟨hs.ctrl_eq, hs.dim_eq, hs.fmt_eq, hs.kgeom_eq, hs.pal_eq, hs.ker_eq, hs.qin_eq,
      hs.resets_eq, rfl, rfl, fun hne => absurd hne hnot,
      fun hoff => dlineRun_grid_of_kernelOn_false _ y (hoff.resolve_left hnot),
      fun _ _ => hs.qidx_eq, fun _ _ => hs.out_eq⟩

end Sys2Proof.Machine
end

section
/-! PROOFS. The encoding (30_encoding.md): the words that decode are exactly the encodings of the
well-formed commands, and every other statement about legal words is read off that. -/

namespace Sys2Proof

open Sys2Proof.Laws

theorem wellFormed_dline_iff {y : Nat} : (Instr.dline y).WellFormed ↔ y < 65536 :=
  decide_eq_true_iff

theorem decode_of_dline_fields {w : Word} (hrsv : rsvField w = 0) (hop : opField w = 1) :
    decode w = .ok (.dline (immField w).toNat) := by
  rw [decode, if_neg (not_not.2 hrsv), if_pos hop]

theorem rsvField_encode_dline {y : Nat} (hy : y < 65536) : rsvField (encode (.dline y)) = 0 := by
  apply BitVec.eq_of_toNat_eq
  rw [rsvField_toNat, encode_dline_toNat hy]
  show (y * 256 + 1) / 16777216 = 0
  omega

theorem opField_encode_dline {y : Nat} (hy : y < 65536) : opField (encode (.dline y)) = 1 := by
  apply BitVec.eq_of_toNat_eq
  rw [opField_toNat, encode_dline_toNat hy]
  show (y * 256 + 1) % 256 = 1
  omega

theorem immField_encode_dline {y : Nat} (hy : y < 65536) :
    (immField (encode (.dline y))).toNat = y := by
  rw [immField_toNat, encode_dline_toNat hy]
  omega

/-- The encoding of a well-formed command decodes to it. -/
theorem decode_encode {i : Instr} (h : i.WellFormed) : decode (encode i) = .ok i := by
  cases i with
  | dline y =>
    have hy := wellFormed_dline_iff.1 h
    rw [decode_of_dline_fields (rsvField_encode_dline hy) (opField_encode_dline hy),
      immField_encode_dline hy]
  | nop => rfl
  | near => rfl
  | encrow => rfl
  | sreset => rfl

theorem wellFormed_of_decode {w : Word} {i : Instr} (h : decode w = .ok i) : i.WellFormed := by
  unfold decode at h
  split_ifs at h <;> cases h
  · exact wellFormed_dline_iff.2 (immField w).isLt
  all_goals rfl

/-- The legal words are the encodings of the well-formed commands (30_encoding.md R96). -/
theorem decode_eq_ok_iff {w : Word} {i : Instr} :
    decode w = .ok i ↔ i.WellFormed ∧ encode i = w :=
  ⟨fun h => ⟨wellFormed_of_decode h, encode_of_decode h⟩, fun ⟨hi, hw⟩ => hw ▸ decode_encode hi⟩

/-- Settles O1: both ways are the one description of the legal words. -/
theorem decodeAndEncodeAreInverse : Obligations.DecodeAndEncodeAreInverse :=
  ⟨fun _ hi => decode_encode hi, fun _ _ h => decode_eq_ok_iff.1 h⟩

/-- Settles O4: each word is the encoding of the command beside it. -/
theorem syntaxTableWordsDecode : Obligations.SyntaxTableWordsDecode := by
  simp only [Obligations.SyntaxTableWordsDecode, decode_eq_ok_iff]
  decide

/-! ### the rows of the opcode map (30_encoding.md R91) -/

/-- A row whose mask is the whole word has one word. -/
theorem decode_eq_ok_iff_row {w : Word} {i : Instr} (hmask : i.rowMask = BitVec.allOnes 32) :
    decode w = .ok i ↔ w &&& i.rowMask = i.rowMatch := by
  rw [decode_eq_ok_iff, hmask, BitVec.and_allOnes, eq_comm (a := w)]
  cases i with
  | dline y => exact absurd hmask (by simp [Instr.rowMask])
  | nop => exact and_iff_right rfl
  | near => exact and_iff_right rfl
  | encrow => exact and_iff_right rfl
  | sreset => exact and_iff_right rfl

/-- The mask of the DLINE row keeps `rsv`. -/
theorem rsvField_and_dlineMask (w : Word) : rsvField (w &&& 0xFF0000FF#32) = rsvField w := by
  rw [rsvField, BitVec.extractLsb'_and]
  exact BitVec.and_allOnes

/-- The mask of the DLINE row keeps `op`. -/
theorem opField_and_dlineMask (w : Word) : opField (w &&& 0xFF0000FF#32) = opField w := by
  rw [opField, BitVec.extractLsb'_and]
  exact BitVec.and_allOnes

theorem exists_decode_dline_iff_row {w : Word} :
    (∃ y, decode w = .ok (.dline y)) ↔ w &&& 0xFF0000FF#32 = 0x00000001#32 := by
  constructor
  · rintro ⟨y, hd⟩
    obtain ⟨hy, rfl⟩ := decode_eq_ok_iff.1 hd
    exact (RowPattern.dline y hy).1
  · intro h
    have hrsv : rsvField w = 0 := by rw [← rsvField_and_dlineMask, h]; rfl
    have hop : opField w = 1 := by rw [← opField_and_dlineMask, h]; rfl
    exact ⟨_, decode_of_dline_fields hrsv hop⟩

/-- The line index is bits 23:8 (30_encoding.md R93). -/
theorem lineIndex_of_decode {w : Word} {y : Nat} (h : decode w = .ok (.dline y)) :
    y = w.toNat / 256 % 65536 := by
  obtain ⟨hwf, rfl⟩ := decode_eq_ok_iff.1 h
  rw [← immField_toNat, immField_encode_dline (wellFormed_dline_iff.1 hwf)]

/-! ### the illegal words (30_encoding.md R94) -/

/-- Which words are legal, by the fields as numbers. -/
theorem exists_decode_ok_iff {w : Word} :
    (∃ i, decode w = .ok i) ↔
      w.toNat / 16777216 = 0 ∧ w.toNat % 256 ≤ 4 ∧
        (w.toNat % 256 = 1 ∨ w.toNat / 256 % 65536 = 0) := by
  constructor
  · rintro ⟨i, hd⟩
    obtain ⟨hi, rfl⟩ := decode_eq_ok_iff.1 hd
    cases i with
    | dline y =>
      have hy := wellFormed_dline_iff.1 hi
      rw [encode_dline_toNat hy]
      omega
    | nop => decide
    | near => decide
    | encrow => decide
    | sreset => decide
  · rintro ⟨hrsv, hop, himm⟩
    have legal (i : Instr) (hi : i.WellFormed) (hw : (encode i).toNat = w.toNat) :
        ∃ i, decode w = .ok i := ⟨i, decode_eq_ok_iff.2 ⟨hi, BitVec.eq_of_toNat_eq hw⟩⟩
    by_cases hline : w.toNat % 256 = 1
    · have hy : w.toNat / 256 < 65536 := by omega
      refine legal (.dline (w.toNat / 256)) (wellFormed_dline_iff.2 hy) ?_
      rw [encode_dline_toNat hy]
      omega
    · have hword : w.toNat = 0 ∨ w.toNat = 2 ∨ w.toNat = 3 ∨ w.toNat = 4 := by omega
      obtain hw | hw | hw | hw := hword
      · exact legal .nop rfl hw.symm
      · exact legal .near rfl hw.symm
      · exact legal .encrow rfl hw.symm
      · exact legal .sreset rfl hw.symm

/-- The decoder refuses exactly the words that spell no command. -/
theorem exists_decode_error_iff {w : Word} :
    (∃ why, decode w = .error why) ↔ ¬∃ i, decode w = .ok i := by
  cases decode w <;> simp

/-- Settles O2: the five rows, and an `op` above 4 is in none of them. -/
theorem legalWordsMatchTheOpcodeMap : Obligations.LegalWordsMatchTheOpcodeMap := by
  refine fun w => ⟨decode_eq_ok_iff_row (i := .nop) rfl, exists_decode_dline_iff_row,
    fun y => lineIndex_of_decode, decode_eq_ok_iff_row (i := .near) rfl,
    decode_eq_ok_iff_row (i := .encrow) rfl, decode_eq_ok_iff_row (i := .sreset) rfl,
    fun hop => ?illegal, fun hrow => ?disjoint⟩
  case illegal =>
    rw [exists_decode_error_iff, exists_decode_ok_iff]
    omega
  case disjoint =>
    refine ⟨?_, ?_, ?_, ?_⟩ <;> rintro rfl <;> exact absurd hrow (by decide)

end Sys2Proof

namespace Sys2Proof.Machine

/-- An illegal word written to CMD with no error latched (60_exceptions.md R187). -/
theorem step_illegal {s : State} {w : Word} {rest : List (Event NUM)} {why : Illegal}
    (hs : s.events = .txn (.regWrite 0x08 w) :: rest) (he : s.err = false)
    (hd : decode w = .error why) :
    step s = .next
      { s with toEngine := raiseError .illcmd w s.toEngine, events := rest, reply := .none } := by
  rw [step_command hs, issue_eq, execWord_illegal _ he hd]

/-- Settles O3: the three reasons negate the description of the legal words, and an illegal word
raises. -/
theorem illegalWordsRaiseIllcmd : Obligations.IllegalWordsRaiseIllcmd := by
  refine fun w => ⟨fun hreason => ?illegal,
    fun hrsv hop himm => exists_decode_ok_iff.2 ⟨hrsv, hop, himm⟩⟩
  case illegal =>
    have herr : ∃ why, decode w = .error why := by
      rw [exists_decode_error_iff, exists_decode_ok_iff]
      omega
    obtain ⟨why, hd⟩ := herr
    exact ⟨⟨why, hd⟩, fun s rest hs he => step_illegal hs he hd⟩

end Sys2Proof.Machine
end

section
/-! PROOFS. The functions on `NUM` (40_numerics.md R113, R114): the clamp keeps every value between 0
and 1 and brings every value there; the distance is a sum of squares. -/

namespace Sys2Proof.Machine

variable {α : Type} {N : NumOps α}

theorem not_numLt_iff {a b : α} : ¬numLt N a b = true ↔ N.le b a = true := by
  simp [numLt]

theorem clamp01_of_lt_zero {v : α} (h : numLt N v N.zero = true) : clamp01 N v = N.zero :=
  if_pos h

/-- A value in range is below neither bound; this holds for any order. -/
theorem clamp01_of_mem {v : α} (h0 : N.le N.zero v = true) (h1 : N.le v N.one = true) :
    clamp01 N v = v := by
  rw [clamp01, if_neg (not_numLt_iff.2 h0), if_neg (not_numLt_iff.2 h1)]

section Ordered

variable (T : N.TotalOrder) (h01 : N.le N.zero N.one = true)
include T h01

/-- A value above 1 is not below 0, so the first test of the clamp lets it pass. -/
theorem clamp01_of_one_lt {v : α} (h : numLt N N.one v = true) : clamp01 N v = N.one := by
  have h0 : N.le N.zero v = true := T.trans _ _ _ h01 (le_of_numLt T h)
  rw [clamp01, if_neg (not_numLt_iff.2 h0), if_pos h]

theorem clamp01_zero : clamp01 N N.zero = N.zero := clamp01_of_mem (T.refl _) h01

theorem clamp01_one : clamp01 N N.one = N.one := clamp01_of_mem h01 (T.refl _)

/-- The three cases of the clamp, each with its value in range. -/
theorem clamp01_mem (v : α) :
    N.le N.zero (clamp01 N v) = true ∧ N.le (clamp01 N v) N.one = true := by
  by_cases hneg : numLt N v N.zero = true
  · rw [clamp01_of_lt_zero hneg]
    exact ⟨T.refl _, h01⟩
  by_cases hbig : numLt N N.one v = true
  · rw [clamp01_of_one_lt T h01 hbig]
    exact ⟨h01, T.refl _⟩
  · have h0 : N.le N.zero v = true := not_numLt_iff.1 hneg
    have h1 : N.le v N.one = true := not_numLt_iff.1 hbig
    rw [clamp01_of_mem h0 h1]
    exact ⟨h0, h1⟩

theorem clamp01_clamp01 (v : α) : clamp01 N (clamp01 N v) = clamp01 N v :=
  clamp01_of_mem (clamp01_mem T h01 v).1 (clamp01_mem T h01 v).2

/-- If `u` is below 0 or `v` above 1, one side is a bound of the clamp; otherwise the clamp keeps
both values. -/
theorem clamp01_le_clamp01 {u v : α} (h : N.le u v = true) :
    N.le (clamp01 N u) (clamp01 N v) = true := by
  by_cases hneg : numLt N u N.zero = true
  · rw [clamp01_of_lt_zero hneg]
    exact (clamp01_mem T h01 v).1
  by_cases hbig : numLt N N.one v = true
  · rw [clamp01_of_one_lt T h01 hbig]
    exact (clamp01_mem T h01 u).2
  · have hu : N.le N.zero u = true := not_numLt_iff.1 hneg
    have hv : N.le v N.one = true := not_numLt_iff.1 hbig
    rwa [clamp01_of_mem hu (T.trans _ _ _ h hv), clamp01_of_mem (T.trans _ _ _ hu h) hv]

end Ordered

/-- Settles O13: each case of the clamp, and what follows from its values being between 0 and 1. -/
theorem clampIsMonotoneAndIdempotent : Obligations.ClampIsMonotoneAndIdempotent :=
  fun _ _ T h01 =>
    ⟨fun _ => clamp01_of_lt_zero, fun _ => clamp01_of_one_lt T h01, fun _ => clamp01_of_mem,
      clamp01_zero T h01, clamp01_one T h01, clamp01_clamp01 T h01,
      fun _ _ => clamp01_le_clamp01 T h01, fun _ _ _ _ _ hN => hN ▸ rfl⟩

/-! ### the distance -/

theorem dist2_zero (N : NumOps α) (a p : Colour α) : dist2 N 0 a p = N.zero := rfl

/-- One more channel is added last. -/
theorem dist2_succ (N : NumOps α) (ch : Nat) (a p : Colour α) :
    dist2 N (ch + 1) a p = N.add (dist2 N ch a p) (squaredDiff N (a ch) (p ch)) := by
  rw [dist2, List.range_succ, List.foldl_concat, dist2]

theorem squaredDiff_rationals (x y : NUM) : squaredDiff Config.rationals x y = (x - y) ^ 2 :=
  (pow_two _).symm

theorem dist2_rationals (ch : Nat) (a p : Colour NUM) :
    dist2 Config.rationals ch a p = ∑ c ∈ Finset.range ch, (a c - p c) ^ 2 := by
  induction ch with
  | zero => rfl
  | succ ch ih =>
    rw [dist2_succ, ih, squaredDiff_rationals, Finset.sum_range_succ]
    rfl

theorem dist2_rationals_nonneg (ch : Nat) (a p : Colour NUM) :
    0 ≤ dist2 Config.rationals ch a p := by
  rw [dist2_rationals]
  exact Finset.sum_nonneg fun c _ => sq_nonneg _

/-- The square root is increasing on the distances, none of which is negative. -/
theorem sqrt_dist2_le_sqrt_dist2_iff (ch : Nat) (a p q : Colour NUM) :
    Real.sqrt ((dist2 Config.rationals ch a p : Rat) : ℝ) ≤
        Real.sqrt ((dist2 Config.rationals ch a q : Rat) : ℝ) ↔
      dist2 Config.rationals ch a p ≤ dist2 Config.rationals ch a q := by
  have hq : (0 : ℝ) ≤ (dist2 Config.rationals ch a q : Rat) :=
    Rat.cast_nonneg.2 (dist2_rationals_nonneg ch a q)
  rw [Real.sqrt_le_sqrt_iff hq, Rat.cast_le]

/-- Settles O14: the fold over the channels by its two equations, and over the rationals as a sum. -/
theorem distanceIsTheSumOfSquares : Obligations.DistanceIsTheSumOfSquares :=
  ⟨fun _ _ _ _ _ => rfl, fun _ N a p => ⟨dist2_zero N a p, fun ch => dist2_succ N ch a p⟩,
    fun ch a p q => ⟨dist2_rationals ch a p, sqrt_dist2_le_sqrt_dist2_iff ch a p q⟩⟩

end Sys2Proof.Machine
end

section
/-! PROOFS. The quantizer (41_quantize.md R126, R127): the search returns the least index of least
distance, which its two properties determine; what follows for equal entries and for a colour that is
an entry; what the search reads; and NEAR. -/

namespace Sys2Proof.Machine

variable {α : Type} {N : NumOps α}

theorem numLt_iff {a b : α} : numLt N a b = true ↔ N.le b a = false := by
  simp [numLt]

/-! ### the index of the search, by its properties -/

/-- The search over `n` indices ends with the best of all of them. -/
theorem bestBelow_leastIndex (T : N.TotalOrder) (dist : Nat → α) {n : Nat} (hn : 0 < n) :
    BestBelow N dist n (dist (leastIndex N dist n), leastIndex N dist n) := by
  have h := bestBelow_search T dist (n - 1)
  rw [Nat.sub_add_cancel hn] at h
  exact { h with value := rfl }

/-- No index that is nowhere beaten is below one that beats every lower index. -/
theorem le_of_first_of_least {dist : Nat → α} {n j k : Nat} (hk : k < n)
    (hfirst : ∀ i < k, N.le (dist i) (dist k) = false)
    (hleast : ∀ i < n, N.le (dist j) (dist i) = true) : k ≤ j := by
  by_contra hjk
  exact Bool.false_ne_true ((hfirst j (Nat.lt_of_not_le hjk)).symm.trans (hleast k hk))

theorem eq_leastIndex_iff (T : N.TotalOrder) (dist : Nat → α) {n : Nat} (hn : 0 < n) (k : Nat) :
    k = leastIndex N dist n ↔
      k < n ∧ (∀ i < n, N.le (dist k) (dist i) = true) ∧
        ∀ i < k, N.le (dist i) (dist k) = false := by
  have hbest := bestBelow_leastIndex T dist hn
  have hfirst : ∀ i < leastIndex N dist n, N.le (dist i) (dist (leastIndex N dist n)) = false :=
    fun i hi => numLt_iff.1 (hbest.first i hi)
  constructor
  · rintro rfl
    exact ⟨hbest.range, hbest.least, hfirst⟩
  · rintro ⟨hk, hleast, hfirst'⟩
    exact Nat.le_antisymm (le_of_first_of_least hk hfirst' hbest.least)
      (le_of_first_of_least hbest.range hfirst hleast)

/-- Settles O15: `nearest` is the search over the palette, which is never empty. -/
theorem nearestIsTheLeastIndexOfLeastDistance :
    Obligations.NearestIsTheLeastIndexOfLeastDistance :=
  fun _ P e a T k => eq_leastIndex_iff T (palDist2 P e a) e.paletteSize_pos k

section Nearest

variable (P : Params α) (e : Engine α) (a : Colour α) (T : P.num.TotalOrder)
include T

theorem palDist2_nearest_le {i : Nat} (hi : i < e.paletteSize) :
    P.num.le (palDist2 P e a (nearest P e a)) (palDist2 P e a i) = true :=
  (bestBelow_leastIndex T (palDist2 P e a) e.paletteSize_pos).least i hi

theorem not_palDist2_le_nearest {i : Nat} (hi : i < nearest P e a) :
    P.num.le (palDist2 P e a i) (palDist2 P e a (nearest P e a)) = false :=
  numLt_iff.1 ((bestBelow_leastIndex T (palDist2 P e a) e.paletteSize_pos).first i hi)

end Nearest

/-! ### equal entries -/

/-- Settles O16: the lower of the two entries would be no farther than `nearest`. -/
theorem nearestNeverPicksTheHigherDuplicate : Obligations.NearestNeverPicksTheHigherDuplicate := by
  rintro α P e a i j T hij heq rfl
  have hdist : palDist2 P e a i = palDist2 P e a (nearest P e a) :=
    dist2_congr P.num (fun _ _ => rfl) heq
  have hfar := not_palDist2_le_nearest P e a T hij
  rw [hdist, T.refl] at hfar
  exact Bool.noConfusion hfar

/-! ### a colour that is an entry -/

theorem le_rationals_iff {x y : NUM} : Config.rationals.le x y = true ↔ x ≤ y :=
  decide_eq_true_iff

theorem totalOrder_rationals : Config.rationals.TotalOrder where
  refl x := le_rationals_iff.2 (le_refl x)
  trans _ _ _ hxy hyz :=
    le_rationals_iff.2 ((le_rationals_iff.1 hxy).trans (le_rationals_iff.1 hyz))
  antisymm _ _ hxy hyx := (le_rationals_iff.1 hxy).antisymm (le_rationals_iff.1 hyx)
  total x y := (le_total x y).imp le_rationals_iff.2 le_rationals_iff.2

/-- A sum of squares is 0 only when every square is. -/
theorem dist2_rationals_eq_zero_iff (ch : Nat) (a p : Colour NUM) :
    dist2 Config.rationals ch a p = 0 ↔ ∀ c < ch, a c = p c := by
  rw [dist2_rationals, Finset.sum_eq_zero_iff_of_nonneg fun c _ => sq_nonneg _]
  simp only [Finset.mem_range, sq_eq_zero_iff, sub_eq_zero]

section Rationals

variable {P : Params NUM} (hN : P.num = Config.rationals) (e : Engine NUM) (a : Colour NUM)
include hN

theorem palDist2_nonneg (i : Nat) : 0 ≤ palDist2 P e a i := by
  rw [palDist2, hN]
  exact dist2_rationals_nonneg ..

theorem palDist2_eq_zero_iff (i : Nat) :
    palDist2 P e a i = 0 ↔ ∀ c < e.channels, a c = palAt P e i c := by
  rw [palDist2, hN]
  exact dist2_rationals_eq_zero_iff ..

theorem palDist2_nearest_le_rationals {i : Nat} (hi : i < e.paletteSize) :
    palDist2 P e a (nearest P e a) ≤ palDist2 P e a i := by
  have h := palDist2_nearest_le P e a (hN ▸ totalOrder_rationals) hi
  rwa [hN, le_rationals_iff] at h

theorem palDist2_nearest_lt_rationals {i : Nat} (hi : i < nearest P e a) :
    palDist2 P e a (nearest P e a) < palDist2 P e a i := by
  have h := not_palDist2_le_nearest P e a (hN ▸ totalOrder_rationals) hi
  rwa [hN, ← Bool.not_eq_true, le_rationals_iff, not_le] at h

end Rationals

/-- Settles O17: the least distance is 0, which is reached at exactly the entries equal to the colour,
and no index below `nearest` reaches it. -/
theorem nearestFindsTheExactMatch : Obligations.NearestFindsTheExactMatch := by
  intro P e a k hN hk heq
  have hzero : palDist2 P e a k = 0 := (palDist2_eq_zero_iff hN e a k).2 heq
  have hbest : palDist2 P e a (nearest P e a) = 0 :=
    le_antisymm (hzero ▸ palDist2_nearest_le_rationals hN e a hk) (palDist2_nonneg hN e a _)
  have hlower : ∀ i < nearest P e a, palDist2 P e a i ≠ 0 := fun i hi =>
    (hbest ▸ palDist2_nearest_lt_rationals hN e a hi).ne'
  refine ⟨hzero, not_lt.1 fun hlt => hlower k hlt hzero,
    fun c hc => ((palDist2_eq_zero_iff hN e a _).1 hbest c hc).symm, fun i hi => ?_⟩
  by_contra! hall
  exact hlower i hi ((palDist2_eq_zero_iff hN e a i).2 fun c hc => (hall c hc).symm)

/-! ### what the search reads -/

/-- The search looks at the distances in range only. -/
theorem leastIndex_congr (N : NumOps α) {dist dist' : Nat → α} {n : Nat} (hn : 0 < n)
    (h : ∀ i < n, dist' i = dist i) : leastIndex N dist' n = leastIndex N dist n := by
  rw [leastIndex, leastIndex, h 0 hn]
  refine congrArg Prod.snd (List.foldl_ext _ _ _ fun best i hi => ?_)
  have hin : i < n := by
    have := (List.mem_range'_1.1 hi).2
    omega
  rw [nearestStep, nearestStep, h i hin]

/-- Settles O18: equal operands give equal distances to the entries in use. -/
theorem nearestDependsOnlyOnItsOperands : Obligations.NearestDependsOnlyOnItsOperands := by
  intro α P P' e e' a a' hN hbpp hch hpal ha
  have hsize : e'.paletteSize = e.paletteSize := congrArg (2 ^ ·) hbpp
  have hdist : ∀ i < e.paletteSize, palDist2 P' e' a' i = palDist2 P e a i := fun i hi => by
    rw [palDist2, palDist2, hN, hch]
    exact dist2_congr P.num ha (hpal i hi)
  rw [nearest, nearest, hN, hsize]
  exact leastIndex_congr P.num e.paletteSize_pos hdist

/-! ### NEAR -/

theorem nearest_lt_of_bppLegal (P : Params α) {e : Engine α} (h : e.bppLegal = true)
    (a : Colour α) : nearest P e a < 256 :=
  (nearest_lt P e a).trans_le (Engine.paletteSize_le h)

/-- With a legal depth every index fits into QIDX. -/
theorem nearRun_qidx_toNat (P : Params α) {e : Engine α} (h : e.bppLegal = true) :
    (nearRun P e).qidx.toNat = nearest P e (qinAt P e) := by
  rw [nearRun_qidx, BitVec.toNat_ofNat, Nat.mod_eq_of_lt (nearest_lt_of_bppLegal P h _), qinColour]

/-- QIDX is register 0x09, read zero extended (10_state.md R33). -/
theorem regRead_qidx (e : Engine α) : regRead e 0x09 = BitVec.ofNat 32 e.qidx.toNat :=
  (BitVec.ofNat_toNat 32 e.qidx).symm

/-- Settles O19: NEAR passes its only check, and its index fits into QIDX. -/
theorem nearWritesQidx : Obligations.NearWritesQidx := by
  intro s he hdepth
  have hl : s.bppLegal = true := (Engine.bppLegal_iff _).2 hdepth
  have hq := nearRun_qidx_toNat Config.reference hl
  exact ⟨_, exec_near_ready he hl, rfl, hq, (regRead_qidx _).trans (congrArg _ hq)⟩

end Sys2Proof.Machine
end

section
/-! PROOFS. What a line of DLINE records in IDX (42_dither.md R141), said once for the loops of both
modes; and DLINE past its checks in each mode. -/

namespace Sys2Proof.Machine

open Sys2Proof.Laws

variable {α : Type}

theorem idxKey_ne_of_ne {s x x' : Nat} (h : x ≠ x') : idxKey s x ≠ idxKey s x' := by
  unfold idxKey
  omega

/-- Every iteration of `f` writes one element of IDX, that of its column in the slot of line `y`. -/
def RecordsColumn (y : Nat) (f : Engine α → Nat → Engine α) (v : Engine α → Nat → Byte) : Prop :=
  ∀ e x, (f e x).idx = e.idx.write (idxKey (slotOf y) x) (v e x)

theorem recordsColumn_plainPixel (P : Params α) (y : Nat) :
    RecordsColumn y (plainPixel P y) fun e x =>
      BitVec.ofNat 8 (nearest P e (gridColour P e y x)) :=
  fun _ _ => rfl

theorem recordsColumn_ditherPixel (P : Params α) (rtl : Bool) (y : Nat) :
    RecordsColumn y (ditherPixel P rtl y) fun e x =>
      BitVec.ofNat 8 (nearest P e (clampedColour P e y x)) :=
  fun e x => ditherPixel_idx P rtl y e x

section Columns

variable {y : Nat} {f : Engine α → Nat → Engine α} {v : Engine α → Nat → Byte}
  (hf : RecordsColumn y f v) {l : List Nat} {e : Engine α}
include hf

/-- An element of no visited column reads as before. -/
theorem RecordsColumn.foldl_read_other {k : Nat} (hk : ∀ x ∈ l, k ≠ idxKey (slotOf y) x) :
    (l.foldl f e).idx.read k = e.idx.read k :=
  foldl_observe (obs := fun e : Engine α => e.idx.read k) fun s x hx => by
    rw [hf s x]
    exact Mem.read_write_other _ _ (hk x hx)

/-- A column visited once holds what its visit recorded: whatever every value recorded satisfies. -/
theorem RecordsColumn.foldl_read_column {I : Engine α → Prop} {Q : Byte → Prop} {x : Nat}
    (hl : l.Nodup) (hx : x ∈ l) (h0 : I e) (hkeep : ∀ s x, x ∈ l → I s → I (f s x))
    (hQ : ∀ s, I s → Q (v s x)) :
    ∃ b, (l.foldl f e).idx.read (idxKey (slotOf y) x) = some b ∧ Q b := by
  refine of_eq_true (foldl_observe_once (g := fun _ => True) (I := I)
    (obs := fun s : Engine α => ∃ b, s.idx.read (idxKey (slotOf y) x) = some b ∧ Q b)
    hl hx h0 hkeep ?_ ?_)
  · intro s hs
    refine eq_true ⟨v s x, ?_, hQ s hs⟩
    rw [hf s x, Mem.read_write_same]
  · intro s i _ hi _
    rw [hf s i, Mem.read_write_other _ _ (idxKey_ne_of_ne hi.symm)]

end Columns

theorem dlineRun_of_kernelOn (P : Params α) {e : Engine α} (y : Nat) (h : e.kernelOn = true) :
    dlineRun P y e = diffuseLine P y e := if_pos h

theorem dlineRun_of_kernelOn_false (P : Params α) {e : Engine α} (y : Nat)
    (h : e.kernelOn = false) : dlineRun P y e = plainLine P y e := by
  rw [dlineRun, h, if_neg (by decide)]

theorem exec_dline_diffuse {s : State} {y : Nat} (h : DlineReady s.toEngine y)
    (hk : s.kernelOn = true) :
    exec (.dline y) s = .next { s with toEngine := diffuseLine Config.reference y s.toEngine } := by
  rw [exec_dline_ready h, dlineRun_of_kernelOn _ _ hk]

theorem exec_dline_plain {s : State} {y : Nat} (h : DlineReady s.toEngine y)
    (hk : s.kernelOn = false) :
    exec (.dline y) s = .next { s with toEngine := plainLine Config.reference y s.toEngine } := by
  rw [exec_dline_ready h, dlineRun_of_kernelOn_false _ _ hk]

end Sys2Proof.Machine
end

section
/-! PROOFS. No-dither mode (42_dither.md R137, R148 (e)): the loop writes IDX only, each column with
what the state before the line gives; so it is idempotent, and the kernel is not read. -/

namespace Sys2Proof.Machine

open Sys2Proof.Laws

variable {α : Type} (P : Params α) (y : Nat) (e : Engine α)

/-- Pixels of no-dither mode write IDX and nothing else, whichever columns are visited. -/
theorem foldl_plainPixel_frame (l : List Nat) :
    ∃ m, l.foldl (plainPixel P y) e = { e with idx := m } := by
  refine foldl_induct (I := fun s => ∃ m, s = { e with idx := m }) ⟨e.idx, rfl⟩ ?_
  rintro _ x - ⟨m, rfl⟩
  exact ⟨_, rfl⟩

/-- A visited column holds the nearest index of the pixel as it was before the loop. -/
theorem foldl_plainPixel_read {l : List Nat} {x : Nat} (hl : l.Nodup) (hx : x ∈ l) :
    (l.foldl (plainPixel P y) e).idx.read (idxKey (slotOf y) x) =
      some (BitVec.ofNat 8 (nearest P e (gridColour P e y x))) := by
  obtain ⟨b, hb, rfl⟩ := (recordsColumn_plainPixel P y).foldl_read_column
    (Q := (· = BitVec.ofNat 8 (nearest P e (gridColour P e y x))))
    (I := fun s => ∃ m, s = { e with idx := m }) hl hx ⟨e.idx, rfl⟩
    (by rintro _ _ - ⟨m, rfl⟩; exact ⟨_, rfl⟩) (by rintro _ ⟨m, rfl⟩; rfl)
  exact hb

theorem plainLine_frame : ∃ m, plainLine P y e = { e with idx := m } := foldl_plainPixel_frame ..

theorem plainLine_read {x : Nat} (hx : x < e.width) :
    (plainLine P y e).idx.read (idxKey (slotOf y) x) =
      some (BitVec.ofNat 8 (nearest P e (gridColour P e y x))) :=
  foldl_plainPixel_read P y e List.nodup_range (List.mem_range.2 hx)

theorem plainLine_read_other {k : Nat} (hk : ∀ x < e.width, k ≠ idxKey (slotOf y) x) :
    (plainLine P y e).idx.read k = e.idx.read k :=
  (recordsColumn_plainPixel P y).foldl_read_other fun x hx => hk x (List.mem_range.1 hx)

/-- Settles O20: the frame and the two readings of the no-dither loop. -/
theorem noDitherLineQuantizesEveryPixel : Obligations.NoDitherLineQuantizesEveryPixel := by
  intro y s hready hk
  obtain ⟨m, hm⟩ := plainLine_frame Config.reference y s.toEngine
  have hidx : (plainLine Config.reference y s.toEngine).idx = m := congrArg Engine.idx hm
  refine ⟨m, by rw [exec_dline_plain hready hk, hm], fun x hx => ?_, fun k hk => ?_⟩
  · rw [← hidx]
    exact plainLine_read Config.reference y s.toEngine hx
  · rw [← hidx]
    exact plainLine_read_other Config.reference y s.toEngine hk

/-! ### a second DLINE of the line (42_dither.md R148 (e)) -/

/-- A pixel whose index is recorded already changes nothing. -/
theorem plainPixel_eq_self {P : Params α} {y : Nat} {e : Engine α} {x : Nat}
    (h : e.idx.read (idxKey (slotOf y) x) =
      some (BitVec.ofNat 8 (nearest P e (gridColour P e y x)))) : plainPixel P y e x = e := by
  rw [plainPixel, recordIndex, setIdx, Mem.write_read_same h]

theorem plainLine_plainLine : plainLine P y (plainLine P y e) = plainLine P y e := by
  obtain ⟨m, hm⟩ := plainLine_frame P y e
  refine foldl_induct (I := (· = plainLine P y e)) rfl ?_
  rintro _ x hx rfl
  rw [hm] at hx
  refine plainPixel_eq_self ?_
  rw [plainLine_read P y e (List.mem_range.1 hx), hm]
  rfl

/-- The three things a DLINE can do. -/
theorem dlineCommand_cases :
    (e.err = true ∧ dlineCommand P y e = e) ∨
    (e.err = false ∧ ∃ c, dlineFailing y e = some c ∧
      dlineCommand P y e = raiseError c (encode (.dline y)) e) ∨
    (e.err = false ∧ dlineFailing y e = none ∧ dlineCommand P y e = dlineRun P y e) :=
  checkedCommand_cases

/-- Without a kernel: ignored twice, raised and then ignored, or run twice. -/
theorem dlineCommand_dlineCommand {e : Engine α} (hk : e.kernelOn = false) :
    dlineCommand P y (dlineCommand P y e) = dlineCommand P y e := by
  obtain ⟨-, h⟩ | ⟨-, c, -, h⟩ | ⟨herr, hnone, h⟩ := dlineCommand_cases P y e
  · rw [h, h]
  · rw [h]
    exact checkedCommand_halted rfl
  · obtain ⟨m, hm⟩ := plainLine_frame P y e
    rw [h, dlineRun_of_kernelOn_false P y hk]
    have hrun : dlineCommand P y (plainLine P y e) = dlineRun P y (plainLine P y e) := by
      rw [hm]
      exact checkedCommand_run herr hnone
    have hoff : (plainLine P y e).kernelOn = false := by
      rw [hm]
      exact hk
    rw [hrun, dlineRun_of_kernelOn_false P y hoff, plainLine_plainLine]

/-- Settles O22: the hardware's DLINE is idempotent without a kernel, and the rest of the state is
kept. -/
theorem noDitherLineIsIdempotent : Obligations.NoDitherLineIsIdempotent := by
  intro y s t hk ht
  cases ht
  exact congrArg (fun e => Host.Outcome.next { s with toEngine := e })
    (dlineCommand_dlineCommand Config.reference y hk)

/-! ### the kernel is not read -/

/-- The hardware with other scanning bits, kernel geometry and kernel. -/
def withKernel (ctrl kgeom : Word) (ker : Mem α) (e : Engine α) : Engine α :=
  { e with ctrl := ctrl, kgeom := kgeom, ker := ker }

/-- A change of the hardware that the checks do not see and the effects keep passes through the
whole command. -/
theorem checkedCommand_comm {w : Word} {failing : Engine α → Option ErrCode}
    {run g : Engine α → Engine α} {e : Engine α} (herr : (g e).err = e.err)
    (hfailing : failing (g e) = failing e)
    (hraise : ∀ c, raiseError c w (g e) = g (raiseError c w e))
    (hrun : run (g e) = g (run e)) :
    checkedCommand w failing run (g e) = g (checkedCommand w failing run e) := by
  rw [checkedCommand, checkedCommand, herr, hfailing]
  split_ifs
  · rfl
  · cases failing e with
    | none => exact hrun
    | some c => exact hraise c

theorem plainLine_withKernel (ctrl kgeom : Word) (ker : Mem α) :
    plainLine P y (withKernel ctrl kgeom ker e) = withKernel ctrl kgeom ker (plainLine P y e) :=
  List.foldl_hom (withKernel ctrl kgeom ker) fun _ _ => rfl

section OtherKernel

variable {ctrl : Word} (kgeom : Word) (ker : Mem α) {e : Engine α} (hctrl : ctrl.getLsbD 0 = false)
  (hk : e.kernelOn = false)
include hctrl hk

theorem dlineFailing_withKernel :
    dlineFailing y (withKernel ctrl kgeom ker e) = dlineFailing y e := by
  have hoff : (withKernel ctrl kgeom ker e).kernelOn = false := hctrl
  rw [dlineFailing, dlineFailing, hoff, hk]
  simp only [Bool.false_eq_true, false_and, if_false]
  rfl

theorem dlineCommand_withKernel :
    dlineCommand P y (withKernel ctrl kgeom ker e) =
      withKernel ctrl kgeom ker (dlineCommand P y e) := by
  refine checkedCommand_comm rfl (dlineFailing_withKernel y kgeom ker hctrl hk) (fun _ => rfl) ?_
  have hoff : (withKernel ctrl kgeom ker e).kernelOn = false := hctrl
  rw [dlineRun_of_kernelOn_false P y hk, dlineRun_of_kernelOn_false P y hoff, plainLine_withKernel]

end OtherKernel

/-- Settles O21: with KEN = 0 on both sides the command passes through the change of the kernel. -/
theorem noDitherIgnoresTheKernel : Obligations.NoDitherIgnoresTheKernel := by
  intro y s ctrl' kgeom' ker' hk hctrl
  refine ⟨_, rfl, ?_⟩
  exact congrArg (fun e => Host.Outcome.next (State.mk e s.events s.reply))
    (dlineCommand_withKernel Config.reference y kgeom' ker' hctrl hk)

end Sys2Proof.Machine
end

section
/-! PROOFS. Diffusion mode (42_dither.md R138 to R147): the scan order, what one pixel records and
spreads, and what a line can reach. -/

namespace Sys2Proof.Machine

open Sys2Proof.Laws

variable {α : Type}

/-! ### the scan (42_dither.md R138) -/

theorem rightToLeft_iff (e : Engine α) (y : Nat) :
    rightToLeft e y = true ↔ e.serpentine = true ∧ y % 2 = 1 := by
  simp [rightToLeft]

/-- The scan order, by the position in the scan. -/
theorem scanOrder_eq_map (w : Nat) (rtl : Bool) :
    scanOrder w rtl = (List.range w).map fun j => if rtl then w - 1 - j else j := by
  cases rtl
  · exact (List.map_id' _).symm
  · rw [scanOrder, if_pos rfl, List.range_eq_range', List.reverse_range', List.range_eq_range']
    simp

theorem mem_scanOrder {w x : Nat} {rtl : Bool} : x ∈ scanOrder w rtl ↔ x < w := by
  cases rtl <;> simp [scanOrder]

theorem nodup_scanOrder (w : Nat) (rtl : Bool) : (scanOrder w rtl).Nodup := by
  cases rtl
  · exact List.nodup_range
  · exact List.nodup_reverse.2 List.nodup_range

/-- Settles O23: the command runs the line, and the direction is the one of the line index. -/
theorem diffusionLineScansInOrder : Obligations.DiffusionLineScansInOrder := by
  intro y s hready hk rtl hrtl
  have hdir : rightToLeft s.toEngine y = rtl :=
    Bool.eq_iff_iff.2 ((rightToLeft_iff _ _).trans hrtl.symm)
  rw [exec_dline_diffuse hready hk, diffuseLine, hdir, scanOrder_eq_map]

/-! ### one pixel (42_dither.md R139 to R146) -/

/-- The cell `(r, k)` spreads the error of the pixel `(y, x)` to the pixel `(ny, nx)`: its weight is
not zero and the neighbour under it is inside the image. -/
structure CellReaches (P : Params α) (e : Engine α) (rtl : Bool) (y x r k ny nx : Nat) : Prop where
  row : r < e.kernelRows
  col : k < e.kernelCols
  weight : numEq P.num (kerAt P e r k) P.num.zero = false
  line : ny < e.height
  column : nx < e.width
  target : neighbour e rtl y x r k = ((ny : Int), (nx : Int))

theorem neighbour_eq_iff (e : Engine α) (rtl : Bool) (y x r k ny nx : Nat) :
    neighbour e rtl y x r k = ((ny : Int), (nx : Int)) ↔
      (ny : Int) = y + r ∧ (nx : Int) = x + columnOffset rtl e.kernelOrigin k := by
  rw [neighbour, Prod.mk.injEq, eq_comm, eq_comm (b := (nx : Int))]

section OnePixel

variable {P : Params α} {e : Engine α} {rtl : Bool} {y x r k ny nx : Nat}

theorem CellReaches.active (h : CellReaches P e rtl y x r k ny nx) :
    cellActive P e rtl y x (r, k) = true := by
  simp [cellActive, insideImage, h.weight, h.target, h.line, h.column]

theorem cellReaches_of_active (hr : r < e.kernelRows) (hk : k < e.kernelCols)
    (hact : cellActive P e rtl y x (r, k) = true)
    (hn : neighbour e rtl y x r k = ((ny : Int), (nx : Int))) :
    CellReaches P e rtl y x r k ny nx := by
  obtain ⟨hw, hin⟩ := (Bool.and_eq_true _ _).mp hact
  obtain ⟨ny', nx', hn', hny, hnx⟩ := insideImage_spec hin
  obtain ⟨rfl, rfl⟩ : ny' = ny ∧ nx' = nx := by simpa [hn, eq_comm] using hn'
  exact ⟨hr, hk, by simpa using hw, hny, hnx, hn⟩

theorem SameButGridIdx.cellReaches_iff {e' : Engine α} (h : SameButGridIdx e e') :
    CellReaches P e' rtl y x r k ny nx ↔ CellReaches P e rtl y x r k ny nx := by
  rw [h]
  exact ⟨fun ⟨h₁, h₂, h₃, h₄, h₅, h₆⟩ => ⟨h₁, h₂, h₃, h₄, h₅, h₆⟩,
    fun ⟨h₁, h₂, h₃, h₄, h₅, h₆⟩ => ⟨h₁, h₂, h₃, h₄, h₅, h₆⟩⟩

variable (P e rtl y x)

/-- The error of the pixel that `ditherPixel` visits. -/
def visitError : Colour α :=
  pixelError P e (clampedColour P e y x) (nearest P e (clampedColour P e y x))

variable {P e rtl y x}

/-- An element that a cell reaches receives one contribution. -/
theorem gridAt_ditherPixel_hit {c : Nat} (h : CellReaches P e rtl y x r k ny nx)
    (hc : c < e.channels) :
    gridAt P (ditherPixel P rtl y e x) ny nx c =
      contribution P.num (gridAt P e ny nx c) (visitError P e y x c) (kerAt P e r k) :=
  gridAt_spreadError_hit P rtl y x (visitError P e y x) (recordIndex e y x _)
    h.row h.col h.active h.target hc

/-- An element that no cell reaches is left alone. -/
theorem ditherPixel_read_other {key : Nat}
    (h : ∀ r k ny nx c, CellReaches P e rtl y x r k ny nx → c < e.channels →
      key ≠ gridKey ny nx c) :
    (ditherPixel P rtl y e x).grid.read key = e.grid.read key :=
  spreadError_read_other P rtl y x (visitError P e y x) (recordIndex e y x _)
    fun r hr k hk ny nx c hc hact hn => h r k ny nx c (cellReaches_of_active hr hk hact hn) hc

/-- A pixel of the image that no cell reaches keeps its value in the channels in use. -/
theorem gridAt_ditherPixel_miss {c : Nat} (h : ∀ r k, ¬CellReaches P e rtl y x r k ny nx)
    (hnx : nx < e.width) (hc : c < e.channels) :
    gridAt P (ditherPixel P rtl y e x) ny nx c = gridAt P e ny nx c := by
  refine gridAt_congr_read P (sameButGridIdx_ditherPixel ..).resets_eq
    (ditherPixel_read_other fun r k ny' nx' c' hreach hc' hkey => ?_)
  have hw := e.width_lt
  have hch := e.channels_le
  obtain ⟨rfl, rfl, -⟩ := gridKey_inj (by omega) (by omega) (by have := hreach.column; omega)
    (by omega) hkey
  exact h r k hreach

end OnePixel

/-- Settles O24: the record, the elements reached and the elements not reached. -/
theorem ditherPixelRecordsAndDiffuses : Obligations.DitherPixelRecordsAndDiffuses := by
  rintro α P e rtl y x a i rfl rfl
  have hidx := ditherPixel_idx P rtl y e x
  refine ⟨?_, fun k hk => ?_, ?_, ?_⟩
  · rw [hidx]
    exact Mem.read_write_same ..
  · rw [hidx]
    exact Mem.read_write_other _ _ hk
  · intro r hr k hk ny hny nx hnx hw hline hcol c hc
    exact gridAt_ditherPixel_hit
      ⟨hr, hk, hw, hny, hnx, (neighbour_eq_iff ..).2 ⟨hline, hcol⟩⟩ hc
  · intro key hkey
    refine ditherPixel_read_other fun r k ny nx c h hc => ?_
    obtain ⟨hline, hcol⟩ := (neighbour_eq_iff ..).1 h.target
    exact hkey r h.row k h.col ny h.line nx h.column h.weight hline hcol c hc

/-! ### one line (42_dither.md R135) -/

theorem numEq_rationals_iff {u v : NUM} : numEq Config.rationals u v = true ↔ u = v := by
  rw [numEq, Bool.and_eq_true, le_rationals_iff, le_rationals_iff, le_antisymm_iff]

theorem numEq_rationals_eq_false_iff {u v : NUM} :
    numEq Config.rationals u v = false ↔ u ≠ v := by
  rw [← Bool.not_eq_true, numEq_rationals_iff]

/-- An element that no cell reaches from a column of the line is left alone. -/
theorem diffuseLine_read_other {P : Params α} {e : Engine α} {y key : Nat}
    (h : ∀ x < e.width, ∀ r k ny nx c, CellReaches P e (rightToLeft e y) y x r k ny nx →
      c < e.channels → key ≠ gridKey ny nx c) :
    (diffuseLine P y e).grid.read key = e.grid.read key := by
  refine (foldl_induct (I := fun s => SameButGridIdx e s ∧ s.grid.read key = e.grid.read key)
    ⟨.refl e, rfl⟩ ?_).2
  rintro s x hx ⟨hs, hread⟩
  refine ⟨hs.trans (sameButGridIdx_ditherPixel ..), (ditherPixel_read_other ?_).trans hread⟩
  intro r k ny nx c hreach hc
  exact h x (mem_scanOrder.1 hx) r k ny nx c (hs.cellReaches_iff.1 hreach) (hs.channels_eq ▸ hc)

/-- Settles O25: every visit records an index of the palette, and the line keeps the rest. -/
theorem diffusionLineWritesOnlyWhatItReaches :
    Obligations.DiffusionLineWritesOnlyWhatItReaches := by
  intro y s hready hk
  have hrecords := recordsColumn_ditherPixel Config.reference (rightToLeft s.toEngine y) y
  refine ⟨_, _, (exec_dline_diffuse hready hk).trans (congrArg
    (fun e => Host.Outcome.next (State.mk e s.events s.reply))
    (sameButGridIdx_diffuseLine Config.reference y s.toEngine)), fun x hx => ?_, fun k hk => ?_,
    fun key hkey => ?_⟩
  · obtain ⟨b, hb, i, hi, rfl⟩ := hrecords.foldl_read_column
      (I := SameButGridIdx s.toEngine) (Q := fun b => ∃ i < 2 ^ s.bpp, b = BitVec.ofNat 8 i)
      (nodup_scanOrder s.width _) (mem_scanOrder.2 hx) (.refl _)
      (fun _ _ _ h => h.trans (sameButGridIdx_ditherPixel ..))
      (fun e h => ⟨_, h.paletteSize_eq ▸ nearest_lt Config.reference e _, rfl⟩)
    exact ⟨i, hi, hb⟩
  · exact hrecords.foldl_read_other fun x hx => hk x (mem_scanOrder.1 hx)
  · refine diffuseLine_read_other fun x hx r k ny nx c h hc => ?_
    exact hkey x hx r h.row k h.col ny h.line nx h.column
      (numEq_rationals_eq_false_iff.1 h.weight) h.target c hc

end Sys2Proof.Machine
end

section
/-! PROOFS. Lines that spread no error (42_dither.md R149): with every weight 0 no cell is applied,
and at a palette entry the error is 0. -/

namespace Sys2Proof.Machine

open Sys2Proof.Laws

/-! ### colours in `[0,1]` -/

section Unit

variable {P : Params NUM} (hN : P.num = Config.rationals) {e : Engine NUM} {y x : Nat}
include hN

/-- The clamp keeps a value in `[0,1]`. -/
theorem clampedColour_of_mem {c : Nat} (h : 0 ≤ gridAt P e y x c ∧ gridAt P e y x c ≤ 1) :
    clampedColour P e y x c = gridAt P e y x c := by
  rw [clampedColour, hN]
  exact clamp01_of_mem (le_rationals_iff.2 h.1) (le_rationals_iff.2 h.2)

/-- On a pixel in `[0,1]` both modes choose the same index. -/
theorem nearest_clampedColour_of_mem
    (h : ∀ c < e.channels, 0 ≤ gridAt P e y x c ∧ gridAt P e y x c ≤ 1) :
    nearest P e (clampedColour P e y x) = nearest P e (gridColour P e y x) :=
  nearestDependsOnlyOnItsOperands _ P P e e _ _ rfl rfl rfl (fun _ _ _ _ => rfl)
    fun c hc => clampedColour_of_mem hN (h c hc)

end Unit

/-! ### a kernel of zeros (42_dither.md R149 (a)) -/

section ZeroKernel

variable {α : Type} {P : Params α} {e : Engine α} (hzero : ∀ r < e.kernelRows, ∀ k < e.kernelCols,
  numEq P.num (kerAt P e r k) P.num.zero = true)
include hzero

theorem spreadError_of_zeroKernel (rtl : Bool) (y x : Nat) (err : Colour α) :
    spreadError P rtl y x err e = e := by
  refine foldl_induct (I := (· = e)) rfl ?_
  rintro _ ⟨r, k⟩ hcell rfl
  obtain ⟨hr, hk⟩ := (mem_kernelCells _ r k).1 hcell
  exact if_pos (hzero r hr k hk)

/-- The pixel's index is recorded and nothing else happens. -/
theorem ditherPixel_of_zeroKernel (rtl : Bool) (y x : Nat) :
    ditherPixel P rtl y e x = recordIndex e y x (nearest P e (clampedColour P e y x)) :=
  spreadError_of_zeroKernel (e := recordIndex e y x _) hzero rtl y x _

end ZeroKernel

/-- With a kernel of zeros a line in `[0,1]` is the no-dither loop over the scan order. -/
theorem diffuseLine_of_zeroKernel {P : Params NUM} (hN : P.num = Config.rationals)
    {e : Engine NUM} {y : Nat}
    (hzero : ∀ r < e.kernelRows, ∀ k < e.kernelCols, kerAt P e r k = 0) (hunit : lineInUnit P e y) :
    diffuseLine P y e = (scanOrder e.width (rightToLeft e y)).foldl (plainPixel P y) e := by
  have hweights : ∀ r < e.kernelRows, ∀ k < e.kernelCols,
      numEq P.num (kerAt P e r k) P.num.zero = true := fun r hr k hk => by
    rw [hzero r hr k hk, hN]
    rfl
  refine (List.foldl_rel (r := fun s s' => s = s' ∧ ∃ m, s' = { e with idx := m })
    ⟨rfl, e.idx, rfl⟩ ?_).1
  rintro x hx _ _ ⟨rfl, m, rfl⟩
  refine ⟨?_, _, rfl⟩
  rw [ditherPixel_of_zeroKernel (e := { e with idx := m }) hweights,
    nearest_clampedColour_of_mem hN (e := { e with idx := m }) (hunit x (mem_scanOrder.1 hx))]
  rfl

/-- The order in which the no-dither loop visits the columns is not seen (42_dither.md R137). -/
theorem foldl_plainPixel_read_congr {α : Type} (P : Params α) (y : Nat) (e : Engine α)
    {l l' : List Nat} (hl : l.Nodup) (hl' : l'.Nodup) (hmem : ∀ x, x ∈ l ↔ x ∈ l') (k : Nat) :
    (l.foldl (plainPixel P y) e).idx.read k = (l'.foldl (plainPixel P y) e).idx.read k := by
  by_cases hk : ∃ x ∈ l, k = idxKey (slotOf y) x
  · obtain ⟨x, hx, rfl⟩ := hk
    rw [foldl_plainPixel_read P y e hl hx, foldl_plainPixel_read P y e hl' ((hmem x).1 hx)]
  · have hother : ∀ x ∈ l, k ≠ idxKey (slotOf y) x := fun x hx hkx => hk ⟨x, hx, hkx⟩
    have hrecords := recordsColumn_plainPixel P y
    rw [hrecords.foldl_read_other hother,
      hrecords.foldl_read_other fun x hx => hother x ((hmem x).2 hx)]

/-- Settles O26: both runs are the no-dither loop, over the scan order and in ascending order. -/
theorem zeroKernelEqualsNoDither : Obligations.ZeroKernelEqualsNoDither := by
  intro y s ctrl₀ hready hk hoff hzero hunit
  have hready₀ : DlineReady { s with ctrl := ctrl₀ }.toEngine y :=
    { hready with geometry := fun hon => Bool.noConfusion (hoff.symm.trans hon) }
  have hline := diffuseLine_of_zeroKernel (P := Config.reference) rfl hzero hunit
  refine ⟨_, _, exec_dline_diffuse hready hk, exec_dline_plain hready₀ hoff, fun k => ?_, ?_, ?_⟩
  · have hidx := congrArg Engine.idx
      (plainLine_withKernel Config.reference y s.toEngine ctrl₀ s.kgeom s.ker)
    show (diffuseLine Config.reference y s.toEngine).idx.read k =
      (plainLine Config.reference y (withKernel ctrl₀ s.kgeom s.ker s.toEngine)).idx.read k
    rw [hline, hidx]
    exact foldl_plainPixel_read_congr _ y _ (nodup_scanOrder ..) List.nodup_range
      (fun x => mem_scanOrder.trans List.mem_range.symm) k
  · show (diffuseLine Config.reference y s.toEngine).grid = s.grid
    obtain ⟨m, hm⟩ := foldl_plainPixel_frame Config.reference y s.toEngine
      (scanOrder s.width (rightToLeft s.toEngine y))
    rw [hline, hm]
  · exact plainLine_grid ..

/-! ### a uniform line at a palette entry (42_dither.md R149 (c)) -/

theorem gridAt_congr_key {α : Type} (P : Params α) (e : Engine α) {y x c y' x' c' : Nat}
    (h : gridKey y x c = gridKey y' x' c') : gridAt P e y x c = gridAt P e y' x' c' := by
  rw [gridAt, gridAt, h]

section Rationals

variable {P : Params NUM} (hN : P.num = Config.rationals)
include hN

/-- An error of 0 adds 0 to every element it reaches. -/
theorem gridAt_ditherPixel_of_visitError_zero {e : Engine NUM} {y x : Nat} (rtl : Bool)
    (herr : ∀ c < e.channels, visitError P e y x c = 0) :
    gridAt P (ditherPixel P rtl y e x) = gridAt P e := by
  funext y' x' c'
  by_cases hkey : ∃ r k ny nx c, CellReaches P e rtl y x r k ny nx ∧ c < e.channels ∧
      gridKey y' x' c' = gridKey ny nx c
  · obtain ⟨r, k, ny, nx, c, hreach, hc, hkey⟩ := hkey
    rw [gridAt_congr_key P _ hkey, gridAt_congr_key P e hkey, gridAt_ditherPixel_hit hreach hc,
      herr c hc, hN]
    show gridAt P e ny nx c + 0 * kerAt P e r k = gridAt P e ny nx c
    rw [zero_mul, add_zero]
  · refine gridAt_congr_read P (sameButGridIdx_ditherPixel ..).resets_eq
      (ditherPixel_read_other fun r k ny nx c hreach hc heq => hkey ?_)
    exact ⟨r, k, ny, nx, c, hreach, hc, heq⟩

/-- At a pixel that equals palette entry `j` in `[0,1]`, the visit finds the entry and no error. -/
theorem visit_of_paletteEntry {e : Engine NUM} {y x j : Nat} (hj : j < e.paletteSize)
    (hunit : ∀ c < e.channels, 0 ≤ palAt P e j c ∧ palAt P e j c ≤ 1)
    (heq : ∀ c < e.channels, gridAt P e y x c = palAt P e j c) :
    nearest P e (clampedColour P e y x) = nearest P e (palColour P e j) ∧
      ∀ c < e.channels, visitError P e y x c = 0 := by
  have hclamped : ∀ c < e.channels, clampedColour P e y x c = palAt P e j c := fun c hc => by
    rw [← heq c hc]
    exact clampedColour_of_mem hN (by rw [heq c hc]; exact hunit c hc)
  refine ⟨nearestDependsOnlyOnItsOperands _ P P e e _ _ rfl rfl rfl (fun _ _ _ _ => rfl) hclamped,
    fun c hc => ?_⟩
  obtain ⟨-, -, hentry, -⟩ := nearestFindsTheExactMatch P e (clampedColour P e y x) j hN hj hclamped
  rw [visitError, pixelError, hentry c hc, hN]
  exact sub_self _

end Rationals

/-- `e'` differs from `e` in IDX and, in GRID, at most in which elements are listed: every element
has the same value. -/
structure SameValues {α : Type} (P : Params α) (e e' : Engine α) : Prop where
  frame : SameButGridIdx e e'
  grid : gridAt P e' = gridAt P e

section SameValues

variable {α : Type} {P : Params α} {e e' : Engine α} (h : SameValues P e e')
include h

theorem SameValues.clampedColour_eq : clampedColour P e' = clampedColour P e := by
  funext y x c
  rw [clampedColour, clampedColour, h.grid]

theorem SameValues.visitIndex_eq (y x : Nat) :
    nearest P e' (clampedColour P e' y x) = nearest P e (clampedColour P e y x) := by
  rw [h.clampedColour_eq, h.frame.nearest_eq]

theorem SameValues.visitError_eq (y x : Nat) : visitError P e' y x = visitError P e y x := by
  funext c
  rw [visitError, visitError, pixelError, pixelError, h.visitIndex_eq, h.clampedColour_eq,
    h.frame.palAt_eq]

end SameValues

section UniformLine

variable {P : Params NUM} (hN : P.num = Config.rationals)
include hN

/-- A visit that sees no error keeps every value. -/
theorem sameValues_ditherPixel {e e' : Engine NUM} (h : SameValues P e e') (rtl : Bool) {y x : Nat}
    (herr : ∀ c < e.channels, visitError P e y x c = 0) :
    SameValues P e (ditherPixel P rtl y e' x) where
  frame := h.frame.trans (sameButGridIdx_ditherPixel ..)
  grid := by
    have herr' : ∀ c < e'.channels, visitError P e' y x c = 0 := by
      rwa [h.visitError_eq, h.frame.channels_eq]
    exact (gridAt_ditherPixel_of_visitError_zero hN rtl herr').trans h.grid

variable {e : Engine NUM} {y j : Nat} (hj : j < e.paletteSize)
  (hunit : ∀ c < e.channels, 0 ≤ palAt P e j c ∧ palAt P e j c ≤ 1)
  (heq : ∀ x < e.width, ∀ c < e.channels, gridAt P e y x c = palAt P e j c)
include hj hunit heq

/-- Along a uniform line every visit keeps every value. -/
theorem sameValues_visit_of_uniform (rtl : Bool) {e' : Engine NUM} {x : Nat} (hx : x < e.width)
    (h : SameValues P e e') : SameValues P e (ditherPixel P rtl y e' x) :=
  sameValues_ditherPixel hN h rtl (visit_of_paletteEntry hN hj hunit (heq x hx)).2

theorem sameValues_diffuseLine_of_uniform : SameValues P e (diffuseLine P y e) :=
  foldl_induct ⟨.refl e, rfl⟩ fun _ _ hx =>
    sameValues_visit_of_uniform hN hj hunit heq _ (mem_scanOrder.1 hx)

theorem diffuseLine_read_of_uniform {x : Nat} (hx : x < e.width) :
    (diffuseLine P y e).idx.read (idxKey (slotOf y) x) =
      some (BitVec.ofNat 8 (nearest P e (palColour P e j))) := by
  obtain ⟨b, hb, rfl⟩ := (recordsColumn_ditherPixel P (rightToLeft e y) y).foldl_read_column
    (I := SameValues P e) (Q := (· = BitVec.ofNat 8 (nearest P e (palColour P e j))))
    (nodup_scanOrder e.width (rightToLeft e y)) (mem_scanOrder.2 hx) ⟨.refl e, rfl⟩
    (fun _ _ hi => sameValues_visit_of_uniform hN hj hunit heq _ (mem_scanOrder.1 hi))
    (fun e' h => by
      rw [h.visitIndex_eq, (visit_of_paletteEntry hN hj hunit (heq x hx)).1])
  exact hb

end UniformLine

/-- Settles O27: every visit sees the line as it was, finds the same index and spreads 0. -/
theorem uniformLineAtAPaletteEntryDiffusesNothing :
    Obligations.UniformLineAtAPaletteEntryDiffusesNothing := by
  intro y j s hready hk hj hunit heq
  obtain ⟨-, hle, hentry, hleast⟩ := nearestFindsTheExactMatch Config.reference s.toEngine
    (palColour Config.reference s.toEngine j) j rfl hj fun _ _ => rfl
  refine ⟨_, _, exec_dline_diffuse hready hk, hle, hentry, hleast, fun x hx => ?_,
    fun y' x' c' _ _ => ?_⟩
  · have hread := diffuseLine_read_of_uniform (P := Config.reference) rfl hj hunit heq hx
    have hlt := nearest_lt_of_bppLegal Config.reference ((Engine.bppLegal_iff _).2 hready.depth)
      (palColour Config.reference s.toEngine j)
    exact (congrArg BitVec.toNat (Mem.getD_read _ hread)).trans
      ((BitVec.toNat_ofNat ..).trans (Nat.mod_eq_of_lt hlt))
  · have hvalues := sameValues_diffuseLine_of_uniform (P := Config.reference) rfl hj hunit heq
    exact congrFun (congrFun (congrFun hvalues.grid y') x') c'

end Sys2Proof.Machine
end

section
/-! PROOFS. Serpentine mirrors exactly (42_dither.md R138, R142): two runs side by side, one from
the left on the mirrored image, one from the right on the image, stay mirror images pixel by pixel. -/

namespace Sys2Proof.Machine

open Sys2Proof.Laws

variable {α : Type} {P : Params α}

/-- `f` has the registers, the palette and the kernel of `e`, and the mirror of its image, in the
elements in use. -/
structure Mirrored (P : Params α) (e f : Engine α) : Prop where
  dim : f.dim = e.dim
  fmt : f.fmt = e.fmt
  kgeom : f.kgeom = e.kgeom
  palette : ∀ i < e.paletteSize, ∀ c < e.channels, palAt P f i c = palAt P e i c
  kernel : ∀ r < e.kernelRows, ∀ k < e.kernelCols, kerAt P f r k = kerAt P e r k
  image : ∀ y < e.height, ∀ x < e.width, ∀ c < e.channels,
    gridAt P f y x c = gridAt P e y (e.width - 1 - x) c

section Mirrored

variable {e f : Engine α} (h : Mirrored P e f)
include h

theorem Mirrored.width_eq : f.width = e.width := by rw [Engine.width, h.dim]; rfl
theorem Mirrored.height_eq : f.height = e.height := by rw [Engine.height, h.dim]; rfl
theorem Mirrored.bpp_eq : f.bpp = e.bpp := by rw [Engine.bpp, h.fmt]; rfl
theorem Mirrored.channels_eq : f.channels = e.channels := by rw [Engine.channels, h.fmt]; rfl
theorem Mirrored.kernelRows_eq : f.kernelRows = e.kernelRows := by
  rw [Engine.kernelRows, h.kgeom]; rfl
theorem Mirrored.kernelCols_eq : f.kernelCols = e.kernelCols := by
  rw [Engine.kernelCols, h.kgeom]; rfl
theorem Mirrored.kernelOrigin_eq : f.kernelOrigin = e.kernelOrigin := by
  rw [Engine.kernelOrigin, h.kgeom]; rfl

/-- Mirroring the kernel on the mirrored line reaches the mirrored neighbour. -/
theorem Mirrored.neighbour_iff {y x r k ny nx : Nat} (hx : x < e.width) (hnx : nx < e.width) :
    neighbour f false y x r k = ((ny : Int), (nx : Int)) ↔
      neighbour e true y (e.width - 1 - x) r k =
        ((ny : Int), ((e.width - 1 - nx : Nat) : Int)) := by
  rw [neighbour_eq_iff, neighbour_eq_iff, h.kernelOrigin_eq]
  simp only [columnOffset, if_true, Bool.false_eq_true, if_false]
  omega

theorem Mirrored.cellReaches_iff {y x r k ny nx : Nat} (hx : x < e.width) (hnx : nx < e.width) :
    CellReaches P f false y x r k ny nx ↔
      CellReaches P e true y (e.width - 1 - x) r k ny (e.width - 1 - nx) := by
  constructor
  · rintro ⟨hr, hk, hw, hny, -, hn⟩
    rw [h.kernelRows_eq] at hr
    rw [h.kernelCols_eq] at hk
    exact ⟨hr, hk, h.kernel r hr k hk ▸ hw, h.height_eq ▸ hny, by omega,
      (h.neighbour_iff hx hnx).1 hn⟩
  · rintro ⟨hr, hk, hw, hny, -, hn⟩
    exact ⟨h.kernelRows_eq ▸ hr, h.kernelCols_eq ▸ hk, (h.kernel r hr k hk).symm ▸ hw,
      h.height_eq ▸ hny, h.width_eq ▸ hnx, (h.neighbour_iff hx hnx).2 hn⟩

section Visit

variable {y x : Nat} (hy : y < e.height) (hx : x < e.width)
include hy hx

theorem Mirrored.clampedColour_eq {c : Nat} (hc : c < e.channels) :
    clampedColour P f y x c = clampedColour P e y (e.width - 1 - x) c := by
  rw [clampedColour, clampedColour, h.image y hy x hx c hc]

theorem Mirrored.visitIndex_eq :
    nearest P f (clampedColour P f y x) =
      nearest P e (clampedColour P e y (e.width - 1 - x)) :=
  nearestDependsOnlyOnItsOperands _ P P e f _ _ rfl h.bpp_eq h.channels_eq h.palette
    fun _ hc => h.clampedColour_eq hy hx hc

theorem Mirrored.visitError_eq {c : Nat} (hc : c < e.channels) :
    visitError P f y x c = visitError P e y (e.width - 1 - x) c := by
  rw [visitError, visitError, pixelError, pixelError, h.visitIndex_eq hy hx,
    h.clampedColour_eq hy hx hc, h.palette _ (nearest_lt P e _) c hc]

/-- One visit on each side: an element is reached by the same cell on both sides or by none. -/
theorem Mirrored.gridAt_ditherPixel {y' x' c : Nat} (hy' : y' < e.height) (hx' : x' < e.width)
    (hc : c < e.channels) :
    gridAt P (ditherPixel P false y f x) y' x' c =
      gridAt P (ditherPixel P true y e (e.width - 1 - x)) y' (e.width - 1 - x') c := by
  have hcf : c < f.channels := h.channels_eq ▸ hc
  by_cases hreach : ∃ r k, CellReaches P f false y x r k y' x'
  · obtain ⟨r, k, hf⟩ := hreach
    have he := (h.cellReaches_iff hx hx').1 hf
    rw [gridAt_ditherPixel_hit hf hcf, gridAt_ditherPixel_hit he hc, h.image y' hy' x' hx' c hc,
      h.visitError_eq hy hx hc, h.kernel r he.row k he.col]
  · have hf : ∀ r k, ¬CellReaches P f false y x r k y' x' := fun r k hf => hreach ⟨r, k, hf⟩
    have he : ∀ r k, ¬CellReaches P e true y (e.width - 1 - x) r k y' (e.width - 1 - x') :=
      fun r k he => hf r k ((h.cellReaches_iff hx hx').2 he)
    rw [gridAt_ditherPixel_miss hf (h.width_eq ▸ hx') hcf,
      gridAt_ditherPixel_miss he (by omega) hc, h.image y' hy' x' hx' c hc]

theorem mirrored_ditherPixel :
    Mirrored P (ditherPixel P true y e (e.width - 1 - x)) (ditherPixel P false y f x) := by
  have he := sameButGridIdx_ditherPixel P true y e (e.width - 1 - x)
  have hf := sameButGridIdx_ditherPixel P false y f x
  constructor
  · rw [hf.dim_eq, he.dim_eq, h.dim]
  · rw [hf.fmt_eq, he.fmt_eq, h.fmt]
  · rw [hf.kgeom_eq, he.kgeom_eq, h.kgeom]
  · rw [he.paletteSize_eq, he.channels_eq, he.palAt_eq, hf.palAt_eq]
    exact h.palette
  · rw [he.kernelRows_eq, he.kernelCols_eq, he.kerAt_eq, hf.kerAt_eq]
    exact h.kernel
  · rw [he.height_eq, he.width_eq, he.channels_eq]
    exact fun y' hy' x' hx' c hc => h.gridAt_ditherPixel hy hx hy' hx' hc

end Visit

end Mirrored

/-! ### the two runs -/

/-- One visit on each side. -/
def mirrorStep (P : Params α) (y w : Nat) (p : Engine α × Engine α) (x : Nat) :
    Engine α × Engine α :=
  (ditherPixel P true y p.1 (w - 1 - x), ditherPixel P false y p.2 x)

theorem foldl_mirrorStep (P : Params α) (y w : Nat) (e f : Engine α) (l : List Nat) :
    l.foldl (mirrorStep P y w) (e, f) =
      (l.foldl (fun e x => ditherPixel P true y e (w - 1 - x)) e,
        l.foldl (ditherPixel P false y) f) :=
  List.foldl_hom₂ l Prod.mk _ _ _ e f fun _ _ _ => rfl

theorem idxAt_ditherPixel_same (P : Params α) (rtl : Bool) (y : Nat) (e : Engine α) (x : Nat) :
    idxAt P (ditherPixel P rtl y e x) (slotOf y) x =
      BitVec.ofNat 8 (nearest P e (clampedColour P e y x)) := by
  rw [idxAt, ditherPixel_idx, Mem.read_write_same, Option.getD_some]

theorem idxAt_ditherPixel_other (P : Params α) (rtl : Bool) (y : Nat) (e : Engine α) {x x' : Nat}
    (hx : x' ≠ x) : idxAt P (ditherPixel P rtl y e x) (slotOf y) x' = idxAt P e (slotOf y) x' := by
  rw [idxAt, ditherPixel_idx, Mem.read_write_other _ _ (idxKey_ne_of_ne hx),
    (sameButGridIdx_ditherPixel ..).resets_eq, idxAt]

/-- The two runs of the line of `e` are on the way: the right-to-left side has changed GRID and IDX
only, and the other side is its mirror. -/
structure RunsMirrored (P : Params α) (e : Engine α) (p : Engine α × Engine α) : Prop where
  frame : SameButGridIdx e p.1
  mirrored : Mirrored P p.1 p.2

section Runs

variable {e : Engine α} {y : Nat} (hy : y < e.height) {p : Engine α × Engine α}
include hy

theorem runsMirrored_mirrorStep {x : Nat} (hx : x < e.width) (hp : RunsMirrored P e p) :
    RunsMirrored P e (mirrorStep P y e.width p x) where
  frame := hp.frame.trans (sameButGridIdx_ditherPixel ..)
  mirrored := by
    have := mirrored_ditherPixel hp.mirrored (hp.frame.height_eq ▸ hy) (hp.frame.width_eq ▸ hx)
    rwa [hp.frame.width_eq] at this

theorem runsMirrored_foldl (hp : RunsMirrored P e p) :
    RunsMirrored P e ((List.range e.width).foldl (mirrorStep P y e.width) p) :=
  foldl_induct hp fun _ _ hx => runsMirrored_mirrorStep hy (List.mem_range.1 hx)

/-- Each column and its mirror are visited once, at the same time, and record the same index. -/
theorem idxAt_foldl_mirrorStep {x : Nat} (hx : x < e.width) (hp : RunsMirrored P e p) :
    idxAt P ((List.range e.width).foldl (mirrorStep P y e.width) p).2 (slotOf y) x =
      idxAt P ((List.range e.width).foldl (mirrorStep P y e.width) p).1 (slotOf y)
        (e.width - 1 - x) := by
  refine of_eq_true (foldl_observe_once (g := fun _ => True) (I := RunsMirrored P e)
    (obs := fun p : Engine α × Engine α =>
      idxAt P p.2 (slotOf y) x = idxAt P p.1 (slotOf y) (e.width - 1 - x))
    List.nodup_range (List.mem_range.2 hx) hp
    (fun _ _ hi => runsMirrored_mirrorStep hy (List.mem_range.1 hi)) ?_ ?_)
  · intro p hp
    have hindex := hp.mirrored.visitIndex_eq (hp.frame.height_eq ▸ hy) (hp.frame.width_eq ▸ hx)
    rw [hp.frame.width_eq] at hindex
    rw [mirrorStep, idxAt_ditherPixel_same, idxAt_ditherPixel_same, hindex, eq_self]
  · intro p i hi hne _
    have hi := List.mem_range.1 hi
    rw [mirrorStep, idxAt_ditherPixel_other _ _ _ _ hne.symm,
      idxAt_ditherPixel_other _ _ _ _ (by omega)]

end Runs

/-- The two lines, as the two sides of one run. -/
theorem diffuseLine_pair (P : Params α) {e f : Engine α} {y : Nat} (hwidth : f.width = e.width)
    (he : rightToLeft e y = true) (hf : rightToLeft f y = false) :
    (diffuseLine P y e, diffuseLine P y f) =
      (List.range e.width).foldl (mirrorStep P y e.width) (e, f) := by
  rw [foldl_mirrorStep, diffuseLine, diffuseLine, he, hf, scanOrder_eq_map, List.foldl_map, hwidth]
  rfl

/-- Settles O28: the two states are mirrored before the line, and so they are after it. -/
theorem rightToLeftIsTheMirrorOfLeftToRight : Obligations.RightToLeftIsTheMirrorOfLeftToRight := by
  intro y s t hready hsk hserp hodd htk hplain hdim hfmt hkgeom herr hpal hker hgrid
  have hm : Mirrored Config.reference s.toEngine t.toEngine :=
    ⟨hdim, hfmt, hkgeom, hpal, hker, hgrid⟩
  have hready' : DlineReady t.toEngine y :=
    { running := herr.trans hready.running
      depth := hm.bpp_eq ▸ hready.depth
      width := hm.width_eq ▸ hready.width
      height := hm.height_eq ▸ hready.height
      geometry := fun _ => hm.kernelOrigin_eq ▸ hm.kernelCols_eq ▸ hready.geometry hsk
      line := hm.height_eq ▸ hready.line }
  have hpair := diffuseLine_pair Config.reference hm.width_eq
    ((rightToLeft_iff s.toEngine y).2 ⟨hserp, hodd⟩)
    (by rw [rightToLeft, hplain, Bool.false_and])
  have hstart : RunsMirrored Config.reference s.toEngine (s.toEngine, t.toEngine) := ⟨.refl _, hm⟩
  refine ⟨_, _, exec_dline_diffuse hready hsk, exec_dline_diffuse hready' htk, fun x hx => ?_, ?_⟩
  · have hidx := idxAt_foldl_mirrorStep hready.line hx hstart
    rwa [← hpair] at hidx
  · have hafter := runsMirrored_foldl hready.line hstart
    rw [← hpair] at hafter
    have himage := hafter.mirrored.image
    rwa [hafter.frame.height_eq, hafter.frame.width_eq, hafter.frame.channels_eq] at himage

end Sys2Proof.Machine
end

section
/-! PROOFS. Serpentine scanning is seen (42_dither.md R149 (b)), on two lines of two pixels. -/

namespace Sys2Proof.Machine

/-- Two lines of two pixels, one channel, 2 bpp, the palette `0, 1/4, 1/2, 1`, line 1 at `3/8`, and
a kernel that moves half of the error one pixel ahead. The first pixel visited gets index 1, and
its error takes the other one to `7/16`, nearest to entry 2. -/
def serpentineImage : State where
  toEngine := { Engine.afterReset NUM 0 with
    ctrl := 0x00000001
    dim := 0x00020002
    fmt := 0x00000002
    kgeom := 0x00000010
    grid := [(gridKey 0 0 0, 0), (gridKey 0 1 0, 0), (gridKey 1 0 0, 3 / 8), (gridKey 1 1 0, 3 / 8)]
    pal := [(palKey 0 0, 0), (palKey 1 0, 1 / 4), (palKey 2 0, 1 / 2), (palKey 3 0, 1)]
    ker := [(kerKey 0 0, 0), (kerKey 0 1, 1 / 2)] }
  events := []
  reply := .none

theorem dlineReady_serpentineImage : DlineReady serpentineImage.toEngine 1 where
  running := rfl
  depth := .inl rfl
  width := by decide
  height := by decide
  geometry := by decide
  line := by decide

/-- Column 0 of line 1 scanned from the left, and from the right. -/
theorem idxAt_serpentineImage :
    idxAt Config.reference (dlineCommand Config.reference 1 serpentineImage.toEngine) 1 0 = 1 ∧
      idxAt Config.reference (dlineCommand Config.reference 1
        { serpentineImage.toEngine with ctrl := 0x00000003 }) 1 0 = 2 := by
  decide +kernel

/-- Settles O29: column 0 of line 1 is visited first from the left and last from the right. -/
theorem serpentineIsDistinguishable : Obligations.SerpentineIsDistinguishable := by
  refine ⟨serpentineImage, _, _, dlineReady_serpentineImage, rfl, rfl, rfl, rfl, 0, by decide, ?_⟩
  obtain ⟨hleft, hright⟩ := idxAt_serpentineImage
  intro heq
  exact absurd (hleft.symm.trans (heq.trans hright)) (by decide)

end Sys2Proof.Machine
end

section
/-! PROOFS. The bitplane encoder (43_bitplane.md): ENCROW past its checks, where each plane byte
stands in the stream, that the stream reads back, and which bits of the indices it depends on. -/

namespace Sys2Proof.Machine

variable {α : Type}

/-! ### the command (43_bitplane.md R155, R156) -/

section Configured

variable {P : Params α} {e : Engine α} (hdepth : e.bpp = 2 ∨ e.bpp = 4 ∨ e.bpp = 8)
  (hw : 0 < e.width) (hh : 0 < e.height)
include hdepth hw hh

/-- With a legal depth and a size the capacity alone decides. -/
theorem encrowFailing_of_configured : encrowFailing P e =
    if P.outCap.val < e.out.length + rowNeed e then some .outfull else none := by
  have hsize : ¬(e.width = 0 ∨ e.height = 0) := by omega
  rw [encrowFailing, (Engine.bppLegal_iff e).2 hdepth, if_neg (by decide), if_neg hsize]

theorem encrowCommand_of_outCap_lt (he : e.err = false)
    (hcap : P.outCap.val < e.out.length + rowNeed e) :
    encrowCommand P e = raiseError .outfull 0x00000003 e :=
  checkedCommand_raise he <| by
    rw [encrowFailing_of_configured hdepth hw hh, if_pos hcap]

theorem encrowCommand_of_le_outCap (he : e.err = false)
    (hcap : e.out.length + rowNeed e ≤ P.outCap.val) :
    encrowCommand P e = appendOut e (rowBytes P e) :=
  checkedCommand_run he <| by
    rw [encrowFailing_of_configured hdepth hw hh, if_neg (Nat.not_lt.2 hcap)]

end Configured

/-- Settles O31: at the reference capacity ENCROW passes its checks, and OUTLEN counts OUT. -/
theorem encrowAppendsTheTileRow : Obligations.EncrowAppendsTheTileRow := by
  intro s he hdepth hw hh hcap
  have hrun : encrowCommand Config.reference s.toEngine = _ :=
    encrowCommand_of_le_outCap hdepth hw hh he hcap
  have hlen := length_rowBytes Config.reference s.toEngine
  refine ⟨_, ?_, rfl, hlen, ?_⟩
  · rw [exec, execEncrow, hrun]
    rfl
  · exact congrArg (BitVec.ofNat 32) (by rw [List.length_append, hlen]; rfl)

/-- Settles O32: the two answers of the capacity check. -/
theorem encrowRespectsEveryCapacity : Obligations.EncrowRespectsEveryCapacity := by
  intro α P e he hdepth hw hh
  refine ⟨encrowCommand_of_outCap_lt hdepth hw hh he, fun hcap => ?_⟩
  rw [encrowCommand_of_le_outCap hdepth hw hh he hcap, appendOut_out, List.length_append,
    length_rowBytes]
  exact ⟨rfl, hcap⟩

/-! ### the place of each byte (43_bitplane.md R157, R159) -/

section Layout

variable (P : Params α) (e : Engine α) {t q r b : Nat} (ht : t < e.width / 8) (hq : q < e.bpp / 2)
  (hr : r < 8) (hb : b < 2)
include ht hq hr hb

/-- Byte `b` of a word is that of plane `2q + b`. -/
theorem getD_rowBytes_word :
    (rowBytes P e).getD (2 * ((t * (e.bpp / 2) + q) * 8 + r) + b) 0 =
      planeByte P e t (2 * q + b) r := by
  rw [← getD_rowBytes P e ht hq hr hb]
  congr 1
  ring

theorem wordByte_lt_length_rowBytes :
    2 * ((t * (e.bpp / 2) + q) * 8 + r) + b < (rowBytes P e).length := by
  have hrow : (t + 1) * (e.bpp / 2) ≤ e.tiles * (e.bpp / 2) := Nat.mul_le_mul_right _ ht
  rw [Nat.succ_mul] at hrow
  rw [length_rowBytes, rowNeed, Nat.mul_assoc]
  omega

theorem getLsbD_rowBytes_word {x : Nat} (hx : x < 8) :
    ((rowBytes P e).getD (2 * ((t * (e.bpp / 2) + q) * 8 + r) + b) 0).getLsbD (7 - x) =
      (idxAt P e r (8 * t + x)).getLsbD (2 * q + b) := by
  rw [getD_rowBytes_word P e ht hq hr hb, planeByte_getLsbD P e t _ r hx]

end Layout

/-- Settles O33: the two bytes of a word are those of its two planes. -/
theorem wordsHaveThePlanarLayout : Obligations.WordsHaveThePlanarLayout := by
  intro α P e t q r x ht hq hr hx
  exact ⟨getLsbD_rowBytes_word P e ht hq hr Nat.zero_lt_two hx,
    getLsbD_rowBytes_word P e ht hq hr Nat.one_lt_two hx⟩

/-! ### reading the layout back (43_bitplane.md R163) -/

/-- What stands before and after is passed over. -/
theorem getD_append_append {before bytes later : List Byte} {j : Nat} (hj : j < bytes.length) :
    (before ++ bytes ++ later).getD (before.length + j) 0 = bytes.getD j 0 := by
  rw [List.append_assoc, List.getD_append_right _ _ _ _ (Nat.le_add_right ..),
    Nat.add_sub_cancel_left, List.getD_append _ _ _ _ hj]

theorem bitOf_congr {v w : Byte} {p k : Nat} (h : v.getLsbD p = w.getLsbD k) :
    bitOf v p = bitOf w k :=
  BitVec.eq_of_getLsbD_eq fun i _ => by rw [bitOf_getLsbD, bitOf_getLsbD, h]

theorem bitOf_shiftLeft_getLsbD (v : Byte) (p i : Nat) :
    (bitOf v p <<< p).getLsbD i = (decide (i = p) && v.getLsbD p) := by
  rw [BitVec.getLsbD_shiftLeft, bitOf_getLsbD, Bool.eq_iff_iff]
  simp only [Bool.and_eq_true, Bool.not_eq_true', decide_eq_true_eq, decide_eq_false_iff_not]
  constructor
  · rintro ⟨⟨-, hge⟩, hsub, hv⟩
    exact ⟨by omega, hv⟩
  · rintro ⟨rfl, hv⟩
    exact ⟨⟨BitVec.lt_of_getLsbD hv, Nat.lt_irrefl i⟩, Nat.sub_self i, hv⟩

/-- The low `n` bits of a byte, collected one by one. -/
theorem foldl_bitOf_toNat (v : Byte) (n : Nat) :
    ((List.range n).foldl (fun acc p => acc ||| (bitOf v p <<< p)) 0#8).toNat =
      v.toNat % 2 ^ n := by
  apply Nat.eq_of_testBit_eq
  intro i
  simp only [BitVec.testBit_toNat, foldl_or_getLsbD, bitOf_shiftLeft_getLsbD,
    Nat.testBit_mod_two_pow]
  rw [Bool.eq_iff_iff]
  simp

section ReadBack

variable (P : Params α) (e : Engine α) (before later : List Byte) {t r x p : Nat}
  (hdepth : e.bpp = 2 ∨ e.bpp = 4 ∨ e.bpp = 8) (ht : t < e.width / 8) (hr : r < 8) (hx : x < 8)
include hdepth ht hr hx

theorem readBackBit_rowBytes (hp : p < e.bpp) :
    readBackBit (before ++ rowBytes P e ++ later) before.length e.bpp t p r x =
      bitOf (idxAt P e r (8 * t + x)) p := by
  have hq : p / 2 < e.bpp / 2 := by omega
  have hb : p % 2 < 2 := Nat.mod_lt p Nat.zero_lt_two
  rw [readBackBit, wordPosition, Nat.add_assoc,
    getD_append_append (wordByte_lt_length_rowBytes P e ht hq hr hb)]
  apply bitOf_congr
  rw [getLsbD_rowBytes_word P e ht hq hr hb hx, Nat.div_add_mod]

theorem readBackIndex_rowBytes :
    readBackIndex (before ++ rowBytes P e ++ later) before.length e.bpp t r x =
      (List.range e.bpp).foldl
        (fun acc p => acc ||| (bitOf (idxAt P e r (8 * t + x)) p <<< p)) 0#8 :=
  List.foldl_ext _ _ _ fun acc p hp => by
    rw [readBackBit_rowBytes P e before later hdepth ht hr hx (List.mem_range.1 hp)]

end ReadBack

/-- Settles O34: every bit reads back, and the index is its low bits collected. -/
theorem encodedStreamReadsBack : Obligations.EncodedStreamReadsBack := by
  intro α P e before later t r x hdepth ht hr hx
  constructor
  · rintro p hp _ _ rfl rfl
    exact (readBackBit_rowBytes P e before later hdepth ht hr hx hp).symm
  · rw [readBackIndex_rowBytes P e before later hdepth ht hr hx, foldl_bitOf_toNat]

/-! ### what the bytes depend on (43_bitplane.md R158, R161, R164) -/

section Congruence

variable {P P' : Params α} {e e' : Engine α} {t t' : Nat}

/-- A packed byte holds one bit of each of eight pixels and nothing else. -/
theorem planeByte_congr {p r : Nat} (h : ∀ x < 8,
    (idxAt P' e' r (8 * t' + x)).getLsbD p = (idxAt P e r (8 * t + x)).getLsbD p) :
    planeByte P' e' t' p r = planeByte P e t p r := by
  apply BitVec.eq_of_getLsbD_eq
  intro i hi
  have hx : 7 - i < 8 := by omega
  have hi : i = 7 - (7 - i) := by omega
  rw [hi, planeByte_getLsbD P' e' t' p r hx, planeByte_getLsbD P e t p r hx, h _ hx]

/-- The bytes of a tile are made of the low BPP bits of its 64 indices. -/
theorem tileBytes_congr (hbpp : e'.bpp = e.bpp) (h : ∀ r < 8, ∀ x < 8, ∀ p < e.bpp,
    (idxAt P' e' r (8 * t' + x)).getLsbD p = (idxAt P e r (8 * t + x)).getLsbD p) :
    tileBytes P' e' t' = tileBytes P e t := by
  rw [tileBytes, tileBytes, hbpp]
  refine List.flatMap_congr fun q hq => List.flatMap_congr fun r hr => ?_
  rw [List.mem_range] at hq hr
  rw [planeWord, planeWord, planeByte_congr fun x hx => h r hr x hx (2 * q) (by omega),
    planeByte_congr fun x hx => h r hr x hx (2 * q + 1) (by omega)]

end Congruence

/-- A tile's share of the stream. -/
theorem getD_rowBytes_tile (P : Params α) (e : Engine α) {t j : Nat} (ht : t < e.width / 8)
    (hj : j < 16 * (e.bpp / 2)) :
    (rowBytes P e).getD (t * (16 * (e.bpp / 2)) + j) 0 = (tileBytes P e t).getD j 0 :=
  getD_flatMap_range 0
    (fun t _ => (length_tileBytes P e t).trans (Nat.mul_comm _ _)) ht hj

/-- Settles O35: equal indices give equal tiles, and each share is its tile. -/
theorem identicalTilesEncodeIdentically : Obligations.IdenticalTilesEncodeIdentically := by
  intro α P e t t' ht ht' h j hj
  have htile : tileBytes P e t = tileBytes P e t' :=
    tileBytes_congr rfl fun r hr x hx p _ => by rw [h r hr x hx]
  rw [getD_rowBytes_tile P e ht hj, getD_rowBytes_tile P e ht' hj, htile]

theorem getLsbD_eq_of_toNat_mod_eq {v w : Byte} {n p : Nat} (hp : p < n)
    (h : v.toNat % 2 ^ n = w.toNat % 2 ^ n) : v.getLsbD p = w.getLsbD p := by
  have hbit := congrArg (Nat.testBit · p) h
  simpa [Nat.testBit_mod_two_pow, hp, BitVec.testBit_toNat] using hbit

/-- Settles O36: every tile of the row is a whole tile, and its bytes hold low bits only. -/
theorem encrowUsesOnlyTheLowBitsOfWholeTiles :
    Obligations.EncrowUsesOnlyTheLowBitsOfWholeTiles := by
  intro α P P' e e' hbpp hwidth h
  rw [rowBytes, rowBytes, Engine.tiles, Engine.tiles, hwidth]
  refine List.flatMap_congr fun t ht => tileBytes_congr hbpp fun r hr x hx p hp => ?_
  rw [List.mem_range] at ht
  exact getLsbD_eq_of_toNat_mod_eq hp (h r hr (8 * t + x) (by omega))

end Sys2Proof.Machine
end

section
/-! PROOFS. Dispatch, NOP and SRESET (44_control.md R170 to R176): a write to CMD is `execWord` of the
word, and what it does while halted, for NOP and for SRESET is read off that. -/

namespace Sys2Proof.Machine

/-- The step on a write to CMD is `exec(w)` of 44_control.md R170 on the hardware. -/
theorem step_command_execWord {s : State} {w : Word} {rest : List (Event NUM)}
    (hs : s.events = .txn (.regWrite 0x08 w) :: rest) :
    step s = .next
      { s with
        toEngine := execWord Config.reference w s.toEngine, events := rest, reply := .none } := by
  rw [step_command hs, issue_eq]

/-- Settles O6: the hardware after the step is `execWord`, which is written as the rule is. -/
theorem commandWriteFollowsTheDispatchRule : Obligations.CommandWriteFollowsTheDispatchRule := by
  intro s rest w hs
  rw [step_command_execWord hs, execWord]
  cases s.err with
  | true => rfl
  | false =>
    cases decode w with
    | error why => rfl
    | ok i => cases i <;> rfl

/-- While an error is latched a word other than that of SRESET does nothing (44_control.md R172). -/
theorem step_command_halted {s : State} {w : Word} {rest : List (Event NUM)} (he : s.err = true)
    (hs : s.events = .txn (.regWrite 0x08 w) :: rest) (hw : w ≠ 0x00000004) :
    step s = .next { s with events := rest, reply := .none } := by
  rw [step_command_execWord hs, execWord_halted _ he hw]

/-- Settles O7: the halted step, and the halted `exec`. -/
theorem haltedEngineIgnoresOtherWords : Obligations.HaltedEngineIgnoresOtherWords :=
  ⟨fun _ _ _ he hs hw => step_command_halted he hs hw, fun _ _ he hi => exec_halted he hi⟩

/-- Settles O5: the step issues the word, and a legal word is issued to `exec`. -/
theorem stepRunsTheDecodedCommand : Obligations.StepRunsTheDecodedCommand := by
  intro s rest w i hs hd
  rw [step_command hs, issue, hd]

theorem exec_nop (s : State) : exec .nop s = .next s := rfl

theorem exec_sreset (s : State) :
    exec .sreset s = .next { s with toEngine := softReset s.toEngine } := rfl

/-- The word of NOP with an immediate, which only DLINE may have, is illegal. -/
theorem decode_nop_immediate : decode 0x00000100 = .error .immediate := by decide

/-- Settles O11: the command's meaning, its word, and the word beside it. -/
theorem nopChangesNothing : Obligations.NopChangesNothing :=
  ⟨exec_nop, rfl, decode_encode (i := .nop) rfl, .immediate, decode_nop_immediate⟩

/-- The word of SRESET with a reserved bit set is illegal. -/
theorem decode_sreset_reserved : decode 0x01000004 = .error .reservedBits := by decide

/-- Clearing what is clear changes nothing. -/
theorem softReset_softReset {α : Type} (e : Engine α) : softReset (softReset e) = softReset e := rfl

/-- Settles O12: the effect of SRESET, the halted engine, and the words of SRESET. -/
theorem sresetClearsLatchQidxAndOut : Obligations.SresetClearsLatchQidxAndOut := by
  refine ⟨fun s => ⟨exec_sreset s, fun t ht => ?twice⟩, fun _ _ he hi => exec_halted he hi,
    fun _ => decode_sreset_iff, rfl, fun s rest hs => ⟨fun he => ?halted, fun he => ?running⟩⟩
  case twice =>
    rw [exec_sreset] at ht
    cases ht
    rw [exec_sreset, softReset_softReset]
  case halted => exact step_command_halted he hs (by decide)
  case running => exact step_illegal hs he decode_sreset_reserved

theorem exec_completes (i : Instr) (s : State) : ∃ t, exec i s = .next t := by
  cases i with
  | nop => exact ⟨_, exec_nop s⟩
  | dline y => exact ⟨_, rfl⟩
  | near => exact ⟨_, rfl⟩
  | encrow => exact ⟨_, rfl⟩
  | sreset => exact ⟨_, exec_sreset s⟩

theorem step_completes (s : State) : ∃ t, step s = .next t := by
  cases hs : s.events with
  | nil => exact ⟨s, by rw [step, takeEvent, hs]⟩
  | cons ev rest => exact ⟨_, step_cons hs⟩

/-- Settles O47: each command is one state, and each step is idle or one event. -/
theorem everyCommandAndStepCompletes : Obligations.EveryCommandAndStepCompletes :=
  ⟨exec_completes, step_completes⟩

end Sys2Proof.Machine
end

section
/-! PROOFS. The error latch (60_exceptions.md R189 to R192, R205): the first failing check is the one
that is recorded, raising changes the latch and nothing else, and while it is set only the two resets
change it. -/

namespace Sys2Proof.Machine

variable {α : Type}

/-! ### the idle engine (60_exceptions.md R205) -/

theorem step_idle {s : State} (hs : s.events = []) : step s = .next s := by
  rw [step, takeEvent, hs]

/-- Settles O48: with no event to take, a step takes none. -/
theorem idleEngineKeepsItsState : Obligations.IdleEngineKeepsItsState := fun _ => step_idle

/-! ### leaving the halted state (60_exceptions.md R191, R192) -/

/-- A host write to a register other than CMD leaves the latch. -/
theorem regWrite_latch (n w : Word) (e : Engine α) :
    (regWrite n w e).err = e.err ∧ (regWrite n w e).ecode = e.ecode ∧
      (regWrite n w e).ecmd = e.ecmd := by
  unfold regWrite
  split_ifs <;> exact ⟨rfl, rfl, rfl⟩

/-- A host write to a memory leaves the latch. -/
theorem memWrite_latch (e : Engine α) (st : Store α) :
    (memWrite e st).err = e.err ∧ (memWrite e st).ecode = e.ecode ∧
      (memWrite e st).ecmd = e.ecmd := by
  have herr := congrArg Engine.err (memWrite_frame e st)
  have hcode := congrArg Engine.ecode (memWrite_frame e st)
  have hcmd := congrArg Engine.ecmd (memWrite_frame e st)
  exact ⟨herr, hcode, hcmd⟩

/-- While halted an event keeps the latch, or it is one of the two resets. -/
theorem engineEvent_halted (P : Params α) {e : Engine α} (ev : Event α) (he : e.err = true) :
    ((engineEvent P e ev).1.err = e.err ∧ (engineEvent P e ev).1.ecode = e.ecode ∧
        (engineEvent P e ev).1.ecmd = e.ecmd) ∨
      (ev = .txn (.regWrite cmdNumber 0x00000004) ∧ (engineEvent P e ev).1 = softReset e) ∨
      ev = .hardReset := by
  rcases ev with (n | ⟨n, w⟩ | a | st) | _
  · exact .inl ⟨rfl, rfl, rfl⟩
  · rw [engineEvent]
    split_ifs with hn
    · by_cases hw : w = 0x00000004
      · exact .inr (.inl ⟨by rw [hn, hw], by rw [hw, execWord_sreset]⟩)
      · exact .inl (by rw [execWord_halted P he hw]; exact ⟨rfl, rfl, rfl⟩)
    · exact .inl (regWrite_latch n w e)
  · exact .inl ⟨rfl, rfl, rfl⟩
  · exact .inl (memWrite_latch e st)
  · exact .inr (.inr rfl)

/-- Settles O8: an idle step keeps everything, and the step's event says which of the three holds. -/
theorem onlySresetOrHardwareResetLeavesHalted :
    Obligations.OnlySresetOrHardwareResetLeavesHalted := by
  intro s t he h
  obtain ⟨-, rfl⟩ | ⟨ev, rest, hs, rfl⟩ := step_cases h
  · exact .inl ⟨he, rfl, rfl⟩
  · obtain ⟨herr, hcode, hcmd⟩ | ⟨rfl, hsoft⟩ | rfl := engineEvent_halted Config.reference ev he
    · exact .inl ⟨herr.trans he, hcode, hcmd⟩
    · exact .inr (.inl ⟨rest, hs, hsoft⟩)
    · exact .inr (.inr ⟨rest, hs, rfl⟩)

/-! ### the order of the checks (60_exceptions.md R188, R189) -/

section LegalDepth

variable {e : Engine α} (hdepth : e.bpp = 2 ∨ e.bpp = 4 ∨ e.bpp = 8)
include hdepth

/-- With a legal depth the size is DLINE's next check, then the kernel's geometry, then the line. -/
theorem dlineFailing_of_depth (y : Nat) : dlineFailing y e =
    if e.width = 0 ∨ e.height = 0 then some .size
    else if e.kernelOn = true ∧ e.kernelCols ≤ e.kernelOrigin then some .kgeom
    else if e.height ≤ y then some .line
    else none := by
  rw [dlineFailing, (Engine.bppLegal_iff e).2 hdepth, if_neg (by decide)]

theorem dlineFailing_of_no_size (y : Nat) (hsize : e.width = 0 ∨ e.height = 0) :
    dlineFailing y e = some .size := by
  rw [dlineFailing_of_depth hdepth, if_pos hsize]

theorem encrowFailing_of_no_size (P : Params α) (hsize : e.width = 0 ∨ e.height = 0) :
    encrowFailing P e = some .size := by
  rw [encrowFailing, (Engine.bppLegal_iff e).2 hdepth, if_neg (by decide), if_pos hsize]

variable (hw : 0 < e.width) (hh : 0 < e.height)
include hw hh

theorem dlineFailing_of_origin_outside (y : Nat) (hon : e.kernelOn = true)
    (horigin : e.kernelCols ≤ e.kernelOrigin) : dlineFailing y e = some .kgeom := by
  rw [dlineFailing_of_depth hdepth, if_neg (by omega), if_pos ⟨hon, horigin⟩]

theorem dlineFailing_of_line_outside {y : Nat}
    (hgeom : e.kernelOn = true → e.kernelOrigin < e.kernelCols) (hy : e.height ≤ y) :
    dlineFailing y e = some .line := by
  have hkernel : ¬(e.kernelOn = true ∧ e.kernelCols ≤ e.kernelOrigin) :=
    fun ⟨hon, horigin⟩ => Nat.not_le.2 (hgeom hon) horigin
  rw [dlineFailing_of_depth hdepth, if_neg (by omega), if_neg hkernel, if_pos hy]

end LegalDepth

theorem bppLegal_eq_false {e : Engine α} (h : ¬(e.bpp = 2 ∨ e.bpp = 4 ∨ e.bpp = 8)) :
    e.bppLegal = false :=
  Bool.eq_false_iff.2 fun hl => h ((Engine.bppLegal_iff e).1 hl)

/-- Settles O9: the command raises what its list of checks gives, and the list gives the first. -/
theorem firstFailingCheckIsRaised : Obligations.FirstFailingCheckIsRaised := by
  intro s he
  refine ⟨fun y => ⟨?lineDepth, ?lineSize, ?lineKernel, ?lineIndex⟩, ?depth, ?rowSize, ?rowFull⟩
  case lineDepth =>
    exact fun hd => next_checkedCommand_raise he
      (dlineFailing_of_bppLegal_false (bppLegal_eq_false hd) y)
  case lineSize =>
    exact fun hd hsize => next_checkedCommand_raise he (dlineFailing_of_no_size hd y hsize)
  case lineKernel =>
    exact fun hd hw hh hon horigin => next_checkedCommand_raise he
      (dlineFailing_of_origin_outside hd hw hh y hon horigin)
  case lineIndex =>
    exact fun hd hw hh hgeom hy => next_checkedCommand_raise he
      (dlineFailing_of_line_outside hd hw hh hgeom hy)
  case depth =>
    exact fun hd => ⟨
      next_checkedCommand_raise he (nearFailing_of_bppLegal_false (bppLegal_eq_false hd)),
      next_checkedCommand_raise he
        (encrowFailing_of_bppLegal_false (bppLegal_eq_false hd) Config.reference)⟩
  case rowSize =>
    exact fun hd hsize => next_checkedCommand_raise he
      (encrowFailing_of_no_size hd Config.reference hsize)
  case rowFull =>
    intro hd hw hh hcap
    have hraise : encrowCommand Config.reference s.toEngine = raiseError .outfull 0x00000003 _ :=
      encrowCommand_of_outCap_lt hd hw hh he hcap
    rw [exec, execEncrow, hraise]
    rfl

/-! ### what raising changes (60_exceptions.md R190) -/

theorem ErrCode.code_bounds (c : ErrCode) : 1 ≤ c.code.toNat ∧ c.code.toNat ≤ 6 := by
  cases c <;> decide

/-- Code 1 is that of an illegal word, which no command's checks give. -/
theorem ErrCode.two_le_code {c : ErrCode} (h : c ≠ .illcmd) : 2 ≤ c.code.toNat := by
  cases c with
  | illcmd => exact absurd rfl h
  | bpp | size | kgeom | line | outfull => decide

@[simp] theorem dlineRun_err (P : Params α) (y : Nat) (e : Engine α) :
    (dlineRun P y e).err = e.err :=
  (sameButGridIdx_dlineRun P y e).err_eq

@[simp] theorem encrowRun_err (P : Params α) (e : Engine α) : (encrowRun P e).err = e.err :=
  appendOut_err ..

/-- A word that latches an error has raised it, whatever kind of word it is. -/
theorem execWord_latches {P : Params α} {w : Word} {e : Engine α} (he : e.err = false)
    (hlatched : (execWord P w e).err = true) : ∃ c, execWord P w e = raiseError c w e := by
  have heffect := execWord_effect P w e
  generalize execWord P w e = e' at heffect hlatched
  cases heffect with
  | raised c => exact ⟨c, rfl⟩
  | ignored | softReset | line | near | row => simp [he] at hlatched

/-- On the machine a checked command whose run latches nothing latches only what its checks give. -/
theorem next_checkedCommand_latches {s t : State} {w : Word}
    {failing : Engine NUM → Option ErrCode} {run : Engine NUM → Engine NUM} (he : s.err = false)
    (hcode : failing s.toEngine ≠ some .illcmd) (hrun : (run s.toEngine).err = s.err)
    (h : (.next { s with toEngine := checkedCommand w failing run s.toEngine } :
        Host.Outcome State Fault Refusal) = .next t)
    (hlatched : t.err = true) :
    ∃ c, c ≠ .illcmd ∧ t = { s with toEngine := raiseError c w s.toEngine } := by
  cases h
  cases hf : failing s.toEngine with
  | some c => exact ⟨c, fun hill => hcode (hill ▸ hf), by rw [checkedCommand_raise he hf]⟩
  | none => simp [checkedCommand_run he hf, hrun, he] at hlatched

/-- A command that latches an error has raised it, with one of the codes its checks can give. -/
theorem exec_latches {i : Instr} {s t : State} (he : s.err = false) (h : exec i s = .next t)
    (hlatched : t.err = true) :
    ∃ c, c ≠ .illcmd ∧ t = { s with toEngine := raiseError c (encode i) s.toEngine } := by
  cases i with
  | nop =>
    rw [exec_nop] at h
    cases h
    simp [he] at hlatched
  | sreset =>
    rw [exec_sreset] at h
    cases h
    simp at hlatched
  | dline y =>
    exact next_checkedCommand_latches he (dlineFailing_ne_illcmd y _) (dlineRun_err ..) h hlatched
  | near => exact next_checkedCommand_latches he (nearFailing_ne_illcmd _) rfl h hlatched
  | encrow => exact next_checkedCommand_latches he (encrowFailing_ne_illcmd _ _) rfl h hlatched

/-- Settles O10: a latched error was raised, by the word and by the command, and `raiseError` is the
change of the latch. -/
theorem raisingChangesOnlyTheLatch : Obligations.RaisingChangesOnlyTheLatch := by
  refine ⟨fun s t rest w he hs h hlatched => ?word, fun s t i he h hlatched => ?command⟩
  case word =>
    rw [step_command_execWord hs] at h
    cases h
    obtain ⟨c, hc⟩ := execWord_latches he hlatched
    rw [hc]
    exact ⟨c.code_bounds.1, c.code_bounds.2, rfl⟩
  case command =>
    obtain ⟨c, hc, rfl⟩ := exec_latches he h hlatched
    exact ⟨ErrCode.two_le_code hc, c.code_bounds.2, rfl⟩

end Sys2Proof.Machine
end

section
/-! PROOFS. Commands whose operands are all written do not see the reset contents
(70_reset_and_hazards.md R213): a listed element has one value in every build, and a line keeps the
listed elements of the image listed, so the two builds agree at each visit of each loop. -/

namespace Sys2Proof.Machine

open Sys2Proof.Laws

/-- Two loops whose iterations agree wherever the invariant holds, and keep it, agree. -/
theorem foldl_agree {σ ι : Type} {f g : σ → ι → σ} {I : σ → Prop} {l : List ι} {s : σ} (h0 : I s)
    (hstep : ∀ s i, i ∈ l → I s → g s i = f s i ∧ I (f s i)) :
    l.foldl g s = l.foldl f s ∧ I (l.foldl f s) := by
  refine List.foldl_rel (r := fun t' t => t' = t ∧ I t) ⟨rfl, h0⟩ ?_
  rintro i hi t _ ⟨rfl, ht⟩
  exact hstep t i hi ht

/-- A listed element does not read as its reset content. -/
theorem Mem.getD_read_of_isSome {β : Type} {m : Mem β} {k : Nat} (d d' : β)
    (h : (m.read k).isSome = true) : (m.read k).getD d' = (m.read k).getD d := by
  obtain ⟨v, hv⟩ := Option.isSome_iff_exists.1 h
  rw [Mem.getD_read d' hv, Mem.getD_read d hv]

/-- A checked command by its effect where its checks pass. -/
theorem checkedCommand_congr {α : Type} {w : Word} {failing : Engine α → Option ErrCode}
    {run run' : Engine α → Engine α} {e : Engine α} (h : failing e = none → run' e = run e) :
    checkedCommand w failing run' e = checkedCommand w failing run e := by
  rw [checkedCommand, checkedCommand]
  cases hf : failing e with
  | none => rw [h hf]
  | some c => rfl

/-- A line past its checks is a line of the image (42_dither.md R135). -/
theorem lt_height_of_dlineFailing_none {α : Type} {e : Engine α} {y : Nat}
    (h : dlineFailing y e = none) : y < e.height := by
  unfold dlineFailing at h
  split_ifs at h with _ _ _ hline
  exact Nat.lt_of_not_le hline

/-- A state that a line started in `e` can pass through: IDX and GRID may differ, and the image is
still written. -/
structure LoadedLine {α : Type} (e s : Engine α) : Prop where
  frame : SameButGridIdx e s
  image : gridLoaded s

section TwoBuilds

variable {α : Type} {P P' : Params α} {e s : Engine α}

theorem LoadedLine.setIdx (h : LoadedLine e s) (sl x : Nat) (v : Byte) :
    LoadedLine e (setIdx s sl x v) where
  frame := h.frame.trans (sameButGridIdx_setIdx ..)
  image := h.image

/-- A write lists its element and unlists none. -/
theorem LoadedLine.setGrid (h : LoadedLine e s) (y x c : Nat) (v : α) :
    LoadedLine e (setGrid s y x c v) where
  frame := h.frame.trans (sameButGridIdx_setGrid ..)
  image y' hy x' hx c' hc := by
    rw [setGrid_grid, Mem.read_write]
    split_ifs
    · rfl
    · exact h.image y' hy x' hx c' hc

theorem LoadedLine.gridAt_eq (h : LoadedLine e s) {y x c : Nat} (hy : y < e.height)
    (hx : x < e.width) (hc : c < e.channels) : gridAt P' s y x c = gridAt P s y x c := by
  rw [← h.frame.height_eq] at hy
  rw [← h.frame.width_eq] at hx
  rw [← h.frame.channels_eq] at hc
  exact Mem.getD_read_of_isSome _ _ (h.image y hy x hx c hc)

theorem palAt_of_palLoaded (h : palLoaded e) {i c : Nat} (hi : i < e.paletteSize)
    (hc : c < e.channels) : palAt P' e i c = palAt P e i c :=
  Mem.getD_read_of_isSome _ _ (h i hi c hc)

theorem kerAt_of_kerLoaded (h : kerLoaded e) {r k : Nat} (hr : r < e.kernelRows)
    (hk : k < e.kernelCols) : kerAt P' e r k = kerAt P e r k :=
  Mem.getD_read_of_isSome _ _ (h r hr k hk)

theorem qinAt_of_qinLoaded (h : qinLoaded e) {c : Nat} (hc : c < e.channels) :
    qinAt P' e c = qinAt P e c :=
  Mem.getD_read_of_isSome _ _ (h c hc)

theorem idxAt_of_idxLoaded (h : idxLoaded e) {sl x : Nat} (hs : sl < 8) (hx : x < 8 * e.tiles) :
    idxAt P' e sl x = idxAt P e sl x :=
  Mem.getD_read_of_isSome _ _ (h sl hs x hx)

/-- The bytes of the row are those of the columns of its whole tiles (43_bitplane.md R161). -/
theorem rowBytes_of_idxLoaded (h : idxLoaded e) : rowBytes P' e = rowBytes P e :=
  encrowUsesOnlyTheLowBitsOfWholeTiles α P P' e e rfl rfl fun sl hs x hx => by
    rw [idxAt_of_idxLoaded h hs hx]

section SameArithmetic

variable (hN : P'.num = P.num)
include hN

/-- With the palette written the search depends on the colour alone. -/
theorem nearest_of_palLoaded (hpal : palLoaded e) {a a' : Colour α}
    (ha : ∀ c < e.channels, a' c = a c) : nearest P' e a' = nearest P e a :=
  nearestDependsOnlyOnItsOperands α P P' e e a a' hN rfl rfl
    (fun _ hi _ hc => palAt_of_palLoaded hpal hi hc) ha

/-! ### one pixel in the two builds -/

variable {y x : Nat}

theorem LoadedLine.clampedColour_eq (h : LoadedLine e s) (hy : y < e.height) (hx : x < e.width)
    {c : Nat} (hc : c < e.channels) : clampedColour P' s y x c = clampedColour P s y x c := by
  rw [clampedColour, clampedColour, hN, h.gridAt_eq hy hx hc]

theorem LoadedLine.visitIndex_eq (h : LoadedLine e s) (hpal : palLoaded e) (hy : y < e.height)
    (hx : x < e.width) :
    nearest P' s (clampedColour P' s y x) = nearest P s (clampedColour P s y x) := by
  rw [h.frame.nearest_eq, h.frame.nearest_eq]
  exact nearest_of_palLoaded hN hpal fun c hc => h.clampedColour_eq hN hy hx hc

theorem LoadedLine.visitError_eq (h : LoadedLine e s) (hpal : palLoaded e) (hy : y < e.height)
    (hx : x < e.width) {c : Nat} (hc : c < e.channels) :
    visitError P' s y x c = visitError P s y x c := by
  have hentry : nearest P s (clampedColour P s y x) < e.paletteSize :=
    h.frame.paletteSize_eq ▸ nearest_lt P s _
  rw [visitError, visitError, pixelError, pixelError, h.visitIndex_eq hN hpal hy hx,
    h.clampedColour_eq hN hy hx hc, h.frame.palAt_eq, h.frame.palAt_eq,
    palAt_of_palLoaded hpal hentry hc, hN]

/-! ### the loops of DLINE in the two builds, from the inside -/

theorem plainPixel_agree (hpal : palLoaded e) (hy : y < e.height) (hx : x < e.width)
    (h : LoadedLine e s) :
    plainPixel P' y s x = plainPixel P y s x ∧ LoadedLine e (plainPixel P y s x) := by
  have hindex : nearest P' s (gridColour P' s y x) = nearest P s (gridColour P s y x) := by
    rw [h.frame.nearest_eq, h.frame.nearest_eq]
    exact nearest_of_palLoaded hN hpal fun c hc => h.gridAt_eq hy hx hc
  exact ⟨congrArg (recordIndex s y x) hindex, h.setIdx ..⟩

theorem addPixel_agree {ny nx : Nat} (wt : α) {err err' : Colour α}
    (herr : ∀ c < e.channels, err' c = err c) (hny : ny < e.height) (hnx : nx < e.width)
    (h : LoadedLine e s) :
    addPixel P' ny nx wt err' s = addPixel P ny nx wt err s ∧
      LoadedLine e (addPixel P ny nx wt err s) := by
  refine foldl_agree h fun t c hc ht => ⟨?_, ht.setGrid ..⟩
  have hc : c < e.channels := h.frame.channels_eq ▸ List.mem_range.1 hc
  rw [addChannel, addChannel, hN, ht.gridAt_eq hny hnx hc, herr c hc]

section Spread

variable {err err' : Colour α} (herr : ∀ c < e.channels, err' c = err c) (hker : kerLoaded e)
  (rtl : Bool)
include herr hker

theorem spreadCell_agree {r k : Nat} (hcell : (r, k) ∈ kernelCells e) (h : LoadedLine e s) :
    spreadCell P' rtl y x err' s (r, k) = spreadCell P rtl y x err s (r, k) ∧
      LoadedLine e (spreadCell P rtl y x err s (r, k)) := by
  obtain ⟨hr, hk⟩ := (mem_kernelCells e r k).1 hcell
  have hweight : kerAt P' s r k = kerAt P s r k := by
    rw [h.frame.kerAt_eq, h.frame.kerAt_eq, kerAt_of_kerLoaded hker hr hk]
  unfold spreadCell
  simp only [hweight, hN]
  split_ifs with hzero hin
  · exact ⟨rfl, h⟩
  · obtain ⟨ny, nx, hn, hny, hnx⟩ := insideImage_spec hin
    rw [hn]
    exact addPixel_agree hN _ herr (h.frame.height_eq ▸ hny) (h.frame.width_eq ▸ hnx) h
  · exact ⟨rfl, h⟩

theorem spreadError_agree (h : LoadedLine e s) :
    spreadError P' rtl y x err' s = spreadError P rtl y x err s ∧
      LoadedLine e (spreadError P rtl y x err s) :=
  foldl_agree h fun _ _ hcell =>
    spreadCell_agree hN herr hker rtl (h.frame.kernelCells_eq ▸ hcell)

end Spread

theorem ditherPixel_agree (hker : kerLoaded e) (rtl : Bool) (hpal : palLoaded e)
    (hy : y < e.height) (hx : x < e.width) (h : LoadedLine e s) :
    ditherPixel P' rtl y s x = ditherPixel P rtl y s x ∧
      LoadedLine e (ditherPixel P rtl y s x) := by
  have hvisit (Q : Params α) : ditherPixel Q rtl y s x = spreadError Q rtl y x (visitError Q s y x)
      (recordIndex s y x (nearest Q s (clampedColour Q s y x))) := rfl
  rw [hvisit, hvisit, h.visitIndex_eq hN hpal hy hx]
  exact spreadError_agree hN (fun c hc => h.visitError_eq hN hpal hy hx hc) hker rtl (h.setIdx ..)

end SameArithmetic

/-- With the image, the palette and, where it is on, the kernel written, a line of the image runs
the same in both builds. -/
theorem dlineRun_of_loaded (hN : P'.num = P.num) {y : Nat} (hy : y < e.height)
    (hgrid : gridLoaded e) (hpal : palLoaded e) (hker : e.kernelOn = true → kerLoaded e) :
    dlineRun P' y e = dlineRun P y e := by
  have h0 : LoadedLine e e := ⟨.refl e, hgrid⟩
  cases hk : e.kernelOn with
  | true =>
    rw [dlineRun_of_kernelOn _ _ hk, dlineRun_of_kernelOn _ _ hk]
    exact (foldl_agree h0 fun _ _ hx =>
      ditherPixel_agree hN (hker hk) _ hpal hy (mem_scanOrder.1 hx)).1
  | false =>
    rw [dlineRun_of_kernelOn_false _ _ hk, dlineRun_of_kernelOn_false _ _ hk]
    exact (foldl_agree h0 fun _ _ hx => plainPixel_agree hN hpal hy (List.mem_range.1 hx)).1

end TwoBuilds

/-- Settles O30: past its checks each command reads listed elements only, and the checks read no
memory. -/
theorem loadedCommandsIgnoreResetContents : Obligations.LoadedCommandsIgnoreResetContents := by
  intro α P P' e hN hcap
  refine ⟨fun y hgrid hpal hker => ?dline, fun hqin hpal => ?near, fun hidx => ?encrow⟩
  case dline =>
    exact checkedCommand_congr fun hf =>
      dlineRun_of_loaded hN (lt_height_of_dlineFailing_none hf) hgrid hpal hker
  case near =>
    have hindex : nearest P' e (qinColour P' e) = nearest P e (qinColour P e) :=
      nearest_of_palLoaded hN hpal fun c hc => qinAt_of_qinLoaded hqin hc
    exact checkedCommand_congr fun _ => by rw [nearRun, nearRun, hindex]
  case encrow =>
    have hfailing : encrowFailing P' = encrowFailing P := by
      funext e
      rw [encrowFailing, encrowFailing, hcap]
    rw [encrowCommand, encrowCommand, hfailing]
    exact checkedCommand_congr fun _ => by rw [encrowRun, encrowRun, rowBytes_of_idxLoaded hidx]

end Sys2Proof.Machine
end

section
/-! PROOFS. Runs of the machine: a run is a fold of the hardware's transaction function
(70_reset_and_hazards.md R222). -/

namespace Sys2Proof.Machine

/-- A run takes one step and goes on. -/
theorem run_succ_of_step {M : Host.Core} {s s' : M.State} (h : M.step s = .next s') (n : Nat) :
    M.run (n + 1) s = M.run n s' := by
  rw [Host.Core.run, h]

/-- Settles O49, by induction on the events pending. -/
theorem runIsTheFoldOfTheTransactions : Obligations.RunIsTheFoldOfTheTransactions := by
  intro s
  induction hs : s.events generalizing s with
  | nil => exact ⟨s, rfl, hs, rfl⟩
  | cons ev rest ih =>
    obtain ⟨t, hrun, hdone, ht⟩ := ih (afterEvent s ev rest) rfl
    exact ⟨t, (run_succ_of_step (M := core) (step_cons hs) rest.length).trans hrun, hdone, ht⟩

end Sys2Proof.Machine
end

section
/-! PROOFS. The hardware reset and SRESET compared (70_reset_and_hazards.md R210, R211). -/

namespace Sys2Proof.Machine

/-- Settles O43: the hardware reset lists no element, so each reads as its new reset content; the
fields that SRESET keeps and clears are those of `softReset`. -/
theorem theTwoResetsCompared : Obligations.TheTwoResetsCompared := by
  refine ⟨fun s rest hs => ?hard, fun s t ht => ?soft⟩
  case hard =>
    exact ⟨afterEvent s .hardReset rest, step_cons hs, rfl, regRead_afterReset (s.resets + 1), rfl,
      rfl, fun _ _ _ => rfl, fun _ _ => rfl, fun _ _ => rfl, fun _ => rfl, fun _ _ => rfl⟩
  case soft =>
    rw [exec_sreset] at ht
    cases ht
    simp

end Sys2Proof.Machine
end
